-- ==== Sys2Proof/Word.lean ====
section
/-! DEFINITION. The widths of the machine: register words, bytes and register numbers (00_scope R6, R8). -/

namespace Sys2Proof

/-- A 32-bit pattern: a register, the pc, an instruction word (00_scope R6, R8). -/
abbrev Word := BitVec 32

/-- One byte of memory or of a device stream (20_memory R40). -/
abbrev Byte := BitVec 8

/-- The number of a general register, 0 to 31 (00_scope R6, 10_state R24). -/
abbrev Reg := Fin 32

end Sys2Proof
end

