-- ==== Sys2Proof/Syntax.lean ====
section
/-! DEFINITION. The instructions: one constructor per row of spec/opcode_table.json, with the operands its format
gives it (30_encoding R63, R85). Immediates are kept as the bits of the word; what they stand for is read where
they are used (Machine/Operands.lean). -/

namespace Sys2Proof

/-- The 39 instructions of 30_encoding R69. `ra`, `rb` and `rc` are word[25:21], word[20:16] and word[15:11]; `imm` is
word[15:0], or word[20:0] in `CTL` and `IO`, where its bits 20-16 are `rb` (30_encoding R62, R66, log 11). -/
inductive Instr where
  -- CTL (41_ctl)
  | halt
  | nop
  | sleep (ra : Reg) (imm : BitVec 21)
  -- IO (42_io)
  | in_ (ra rb : Reg) (imm : BitVec 21)
  | out (ra rb : Reg) (imm : BitVec 21)
  | outd (ra rb : Reg) (imm : BitVec 21)
  | outb (ra rb : Reg) (imm : BitVec 21)
  | outh (ra rb : Reg) (imm : BitVec 21)
  | outc (ra rb : Reg) (imm : BitVec 21)
  | cl
  -- ALUR (43_alu)
  | add (ra rb rc : Reg)
  | sub (ra rb rc : Reg)
  | and (ra rb rc : Reg)
  | or (ra rb rc : Reg)
  | xor (ra rb rc : Reg)
  | ls (ra rb rc : Reg)
  | rs (ra rb rc : Reg)
  -- ALUI (43_alu)
  | addi (ra rb : Reg) (imm : BitVec 16)
  | subi (ra rb : Reg) (imm : BitVec 16)
  | andi (ra rb : Reg) (imm : BitVec 16)
  | ori (ra rb : Reg) (imm : BitVec 16)
  | xori (ra rb : Reg) (imm : BitVec 16)
  | lsi (ra rb : Reg) (imm : BitVec 16)
  | rsi (ra rb : Reg) (imm : BitVec 16)
  -- MD (44_md)
  | mul (ra rb rc : Reg)
  | div (ra rb rc : Reg)
  | mod (ra rb rc : Reg)
  -- JUMP (45_jump)
  | j (ra rb : Reg) (imm : BitVec 16)
  | jal (ra rb : Reg) (imm : BitVec 16)
  -- BRANCH (46_branch)
  | beq (ra rb : Reg) (imm : BitVec 16)
  | bne (ra rb : Reg) (imm : BitVec 16)
  | blt (ra rb : Reg) (imm : BitVec 16)
  | bge (ra rb : Reg) (imm : BitVec 16)
  -- MEM (47_mem)
  | lw (ra rb : Reg) (imm : BitVec 16)
  | lb (ra rb : Reg) (imm : BitVec 16)
  | lh (ra rb : Reg) (imm : BitVec 16)
  | sw (ra rb : Reg) (imm : BitVec 16)
  | sb (ra rb : Reg) (imm : BitVec 16)
  | sh (ra rb : Reg) (imm : BitVec 16)
deriving DecidableEq, Repr

end Sys2Proof
end

