-- ==== Sys2Proof/WellFormed.lean ====
section
/-! DEFINITION. Which terms of `Instr` some word encodes. Register numbers and immediates are bounded by their types;
the one relation between operands is the overlap of `rb` with the `IO` immediate (30_encoding R62, R66, R74). -/

namespace Sys2Proof

/-- The register number that stands in bits 20-16 of a 21-bit immediate (30_encoding R66). -/
def immOverlap (imm : BitVec 21) : Reg := (imm.extractLsb' 16 5).toFin

/-- The `IO` operands agree where they overlap: bits 20-16 of the immediate are `rb` (30_encoding R62). -/
def ioOverlapOk (rb : Reg) (imm : BitVec 21) : Bool := immOverlap imm == rb

/-- An instruction some word encodes (30_encoding R74: field values that do not collide). -/
def Instr.wellFormed : Instr → Bool
  | .in_ _ rb imm => ioOverlapOk rb imm
  | .out _ rb imm => ioOverlapOk rb imm
  | .outd _ rb imm => ioOverlapOk rb imm
  | .outb _ rb imm => ioOverlapOk rb imm
  | .outh _ rb imm => ioOverlapOk rb imm
  | .outc _ rb imm => ioOverlapOk rb imm
  | .halt | .nop | .sleep _ _ | .cl => true
  | .add _ _ _ | .sub _ _ _ | .and _ _ _ | .or _ _ _ | .xor _ _ _ | .ls _ _ _ | .rs _ _ _ => true
  | .addi _ _ _ | .subi _ _ _ | .andi _ _ _ | .ori _ _ _ | .xori _ _ _ | .lsi _ _ _ | .rsi _ _ _ => true
  | .mul _ _ _ | .div _ _ _ | .mod _ _ _ => true
  | .j _ _ _ | .jal _ _ _ => true
  | .beq _ _ _ | .bne _ _ _ | .blt _ _ _ | .bge _ _ _ => true
  | .lw _ _ _ | .lb _ _ _ | .lh _ _ _ | .sw _ _ _ | .sb _ _ _ | .sh _ _ _ => true

end Sys2Proof
end

