-- ==== Sys2Proof/Decode.lean ====
section
/-! DEFINITION. The instruction word: its bytes, its fields, the decoder and the encoder (30_encoding R60 to R74), and
the source's sign extension and sign contraction (00_scope R9, R10). -/

namespace Sys2Proof

/-! ### Bytes of a word: big-endian (20_memory R42, R43) -/

/-- The word whose bytes, from the lowest address up, are `b0 b1 b2 b3`. -/
def wordOfBytes (b0 b1 b2 b3 : Byte) : Word :=
  BitVec.ofNat 32 (2 ^ 24 * b0.toNat + 2 ^ 16 * b1.toNat + 2 ^ 8 * b2.toNat + b3.toNat)

/-- The zero-extended half-word whose bytes, from the lowest address up, are `b0 b1`. -/
def halfOfBytes (b0 b1 : Byte) : Word := BitVec.ofNat 32 (2 ^ 8 * b0.toNat + b1.toNat)

/-- Byte `k` of a word counted from its least significant one: bits 8k+7 to 8k. -/
def byteOf (v : Word) (k : Nat) : Byte := v.extractLsb' (8 * k) 8

/-- The four bytes of a word from the lowest address up. -/
def bytesOfWord (v : Word) : List Byte := [byteOf v 3, byteOf v 2, byteOf v 1, byteOf v 0]

/-! ### Sign extension and contraction -/

/-- `extend(v, N)` = `sext_N(v)`: the signed reading of an N-bit pattern (00_scope R9). -/
def extend (v N : Nat) : Int := if v.testBit (N - 1) then (v : Int) - 2 ^ N else v

/-- `contract(v, w)`: the low `w` bits of an integer, in two's complement (00_scope R10). -/
def contract (v : Int) (w : Nat) : Nat := (v % 2 ^ w).toNat

/-! ### Fields (30_encoding R61, R67) -/

/-- word[31:29]. -/
def opcode (w : Word) : BitVec 3 := w.extractLsb' 29 3
/-- word[28:26]. -/
def function (w : Word) : BitVec 3 := w.extractLsb' 26 3
/-- word[25:21]. -/
def fieldA (w : Word) : Reg := (w.extractLsb' 21 5).toFin
/-- word[20:16]. -/
def fieldB (w : Word) : Reg := (w.extractLsb' 16 5).toFin
/-- word[15:11]. -/
def fieldC (w : Word) : Reg := (w.extractLsb' 11 5).toFin
/-- word[15:0], the immediate of formats I (30_encoding R64). -/
def fieldImm16 (w : Word) : BitVec 16 := w.extractLsb' 0 16
/-- word[20:0], the immediate of formats C and O (30_encoding R65). -/
def fieldImm21 (w : Word) : BitVec 21 := w.extractLsb' 0 21

/-! ### Decode (30_encoding R67 to R71) -/

/-- Why bytes are no instruction. -/
inductive DecodeError where
  /-- The pair of opcode and function is one of the 25 illegal ones (30_encoding R70). -/
  | illegalPair (opcode function : BitVec 3)
  /-- There are fewer than the four bytes of an instruction (30_encoding R60). -/
  | truncated
deriving DecidableEq, Repr

/-- Functions of opcode 0, `CTL` (30_encoding R69). -/
def decodeCtl (w : Word) : Option Instr :=
  match (function w).toNat with
  | 0 => some .halt
  | 1 => some .nop
  | 2 => some (.sleep (fieldA w) (fieldImm21 w))
  | _ => none

/-- Functions of opcode 1, `IO` (30_encoding R69). -/
def decodeIo (w : Word) : Option Instr :=
  match (function w).toNat with
  | 0 => some (.in_ (fieldA w) (fieldB w) (fieldImm21 w))
  | 1 => some (.out (fieldA w) (fieldB w) (fieldImm21 w))
  | 2 => some (.outd (fieldA w) (fieldB w) (fieldImm21 w))
  | 3 => some (.outb (fieldA w) (fieldB w) (fieldImm21 w))
  | 4 => some (.outh (fieldA w) (fieldB w) (fieldImm21 w))
  | 5 => some (.outc (fieldA w) (fieldB w) (fieldImm21 w))
  | 6 => some .cl
  | _ => none

/-- Functions of opcode 2, `ALUR` (30_encoding R69). -/
def decodeAlur (w : Word) : Option Instr :=
  match (function w).toNat with
  | 0 => some (.add (fieldA w) (fieldB w) (fieldC w))
  | 1 => some (.sub (fieldA w) (fieldB w) (fieldC w))
  | 2 => some (.and (fieldA w) (fieldB w) (fieldC w))
  | 3 => some (.or (fieldA w) (fieldB w) (fieldC w))
  | 4 => some (.xor (fieldA w) (fieldB w) (fieldC w))
  | 5 => some (.ls (fieldA w) (fieldB w) (fieldC w))
  | 6 => some (.rs (fieldA w) (fieldB w) (fieldC w))
  | _ => none

/-- Functions of opcode 3, `ALUI` (30_encoding R69). -/
def decodeAlui (w : Word) : Option Instr :=
  match (function w).toNat with
  | 0 => some (.addi (fieldA w) (fieldB w) (fieldImm16 w))
  | 1 => some (.subi (fieldA w) (fieldB w) (fieldImm16 w))
  | 2 => some (.andi (fieldA w) (fieldB w) (fieldImm16 w))
  | 3 => some (.ori (fieldA w) (fieldB w) (fieldImm16 w))
  | 4 => some (.xori (fieldA w) (fieldB w) (fieldImm16 w))
  | 5 => some (.lsi (fieldA w) (fieldB w) (fieldImm16 w))
  | 6 => some (.rsi (fieldA w) (fieldB w) (fieldImm16 w))
  | _ => none

/-- Functions of opcode 4, `MD` (30_encoding R69). -/
def decodeMd (w : Word) : Option Instr :=
  match (function w).toNat with
  | 0 => some (.mul (fieldA w) (fieldB w) (fieldC w))
  | 1 => some (.div (fieldA w) (fieldB w) (fieldC w))
  | 2 => some (.mod (fieldA w) (fieldB w) (fieldC w))
  | _ => none

/-- Functions of opcode 5, `JUMP` (30_encoding R69, R70: 2 to 7 are illegal). -/
def decodeJump (w : Word) : Option Instr :=
  match (function w).toNat with
  | 0 => some (.j (fieldA w) (fieldB w) (fieldImm16 w))
  | 1 => some (.jal (fieldA w) (fieldB w) (fieldImm16 w))
  | _ => none

/-- Functions of opcode 6, `BRANCH` (30_encoding R69). -/
def decodeBranch (w : Word) : Option Instr :=
  match (function w).toNat with
  | 0 => some (.beq (fieldA w) (fieldB w) (fieldImm16 w))
  | 1 => some (.bne (fieldA w) (fieldB w) (fieldImm16 w))
  | 2 => some (.blt (fieldA w) (fieldB w) (fieldImm16 w))
  | 3 => some (.bge (fieldA w) (fieldB w) (fieldImm16 w))
  | _ => none

/-- Functions of opcode 7, `MEM` (30_encoding R69). -/
def decodeMem (w : Word) : Option Instr :=
  match (function w).toNat with
  | 0 => some (.lw (fieldA w) (fieldB w) (fieldImm16 w))
  | 1 => some (.lb (fieldA w) (fieldB w) (fieldImm16 w))
  | 2 => some (.lh (fieldA w) (fieldB w) (fieldImm16 w))
  | 3 => some (.sw (fieldA w) (fieldB w) (fieldImm16 w))
  | 4 => some (.sb (fieldA w) (fieldB w) (fieldImm16 w))
  | 5 => some (.sh (fieldA w) (fieldB w) (fieldImm16 w))
  | _ => none

/-- The instruction of a word, by its opcode and function (30_encoding R67 to R69). -/
def decodeByOpcode (w : Word) : Option Instr :=
  match (opcode w).toNat with
  | 0 => decodeCtl w
  | 1 => decodeIo w
  | 2 => decodeAlur w
  | 3 => decodeAlui w
  | 4 => decodeMd w
  | 5 => decodeJump w
  | 6 => decodeBranch w
  | 7 => decodeMem w
  | _ => none

/-- The decoder: total on words, refusing an illegal pair by name (30_encoding R70). -/
def decodeWord (w : Word) : Except DecodeError Instr :=
  match decodeByOpcode w with
  | some i => .ok i
  | none => .error (.illegalPair (opcode w) (function w))

/-- The decoder on bytes, lowest address first: the instruction and the bytes after it (30_encoding R60). -/
def decodeBytes : List Byte → Except DecodeError (Instr × List Byte)
  | b0 :: b1 :: b2 :: b3 :: rest =>
    match decodeWord (wordOfBytes b0 b1 b2 b3) with
    | .ok i => .ok (i, rest)
    | .error e => .error e
  | _ => .error .truncated

/-! ### Encode (30_encoding R61, R63, with the numbers of R68 and R69); bits no field uses are 0 -/

/-- Format R (30_encoding R63): each field at the weight of its lowest bit. -/
def encodeR (op fn : BitVec 3) (ra rb rc : Reg) : Word :=
  BitVec.ofNat 32 (2 ^ 29 * op.toNat + 2 ^ 26 * fn.toNat + 2 ^ 21 * ra.val + 2 ^ 16 * rb.val + 2 ^ 11 * rc.val)

/-- Format I (30_encoding R63). -/
def encodeI (op fn : BitVec 3) (ra rb : Reg) (imm : BitVec 16) : Word :=
  BitVec.ofNat 32 (2 ^ 29 * op.toNat + 2 ^ 26 * fn.toNat + 2 ^ 21 * ra.val + 2 ^ 16 * rb.val + imm.toNat)

/-- Formats C and O (30_encoding R63); in format O the immediate holds `rb` (30_encoding R66). -/
def encodeC (op fn : BitVec 3) (ra : Reg) (imm : BitVec 21) : Word :=
  BitVec.ofNat 32 (2 ^ 29 * op.toNat + 2 ^ 26 * fn.toNat + 2 ^ 21 * ra.val + imm.toNat)

/-- An instruction of which only the tags are read: `HALT`, `NOP`, `CL` (30_encoding R71, R85: all fields 0). -/
def encodeBare (op fn : BitVec 3) : Word := encodeC op fn 0 0

/-- The word of an instruction. -/
def encode : Instr → Word
  | .halt => encodeBare 0 0
  | .nop => encodeBare 0 1
  | .sleep ra imm => encodeC 0 2 ra imm
  | .in_ ra _ imm => encodeC 1 0 ra imm
  | .out ra _ imm => encodeC 1 1 ra imm
  | .outd ra _ imm => encodeC 1 2 ra imm
  | .outb ra _ imm => encodeC 1 3 ra imm
  | .outh ra _ imm => encodeC 1 4 ra imm
  | .outc ra _ imm => encodeC 1 5 ra imm
  | .cl => encodeBare 1 6
  | .add ra rb rc => encodeR 2 0 ra rb rc
  | .sub ra rb rc => encodeR 2 1 ra rb rc
  | .and ra rb rc => encodeR 2 2 ra rb rc
  | .or ra rb rc => encodeR 2 3 ra rb rc
  | .xor ra rb rc => encodeR 2 4 ra rb rc
  | .ls ra rb rc => encodeR 2 5 ra rb rc
  | .rs ra rb rc => encodeR 2 6 ra rb rc
  | .addi ra rb imm => encodeI 3 0 ra rb imm
  | .subi ra rb imm => encodeI 3 1 ra rb imm
  | .andi ra rb imm => encodeI 3 2 ra rb imm
  | .ori ra rb imm => encodeI 3 3 ra rb imm
  | .xori ra rb imm => encodeI 3 4 ra rb imm
  | .lsi ra rb imm => encodeI 3 5 ra rb imm
  | .rsi ra rb imm => encodeI 3 6 ra rb imm
  | .mul ra rb rc => encodeR 4 0 ra rb rc
  | .div ra rb rc => encodeR 4 1 ra rb rc
  | .mod ra rb rc => encodeR 4 2 ra rb rc
  | .j ra rb imm => encodeI 5 0 ra rb imm
  | .jal ra rb imm => encodeI 5 1 ra rb imm
  | .beq ra rb imm => encodeI 6 0 ra rb imm
  | .bne ra rb imm => encodeI 6 1 ra rb imm
  | .blt ra rb imm => encodeI 6 2 ra rb imm
  | .bge ra rb imm => encodeI 6 3 ra rb imm
  | .lw ra rb imm => encodeI 7 0 ra rb imm
  | .lb ra rb imm => encodeI 7 1 ra rb imm
  | .lh ra rb imm => encodeI 7 2 ra rb imm
  | .sw ra rb imm => encodeI 7 3 ra rb imm
  | .sb ra rb imm => encodeI 7 4 ra rb imm
  | .sh ra rb imm => encodeI 7 5 ra rb imm

/-- The bits of an instruction's word that its decoding reads; the others are ignored (30_encoding R71). -/
def readMask : Instr → Word
  | .halt | .nop | .cl => 0xFC000000
  | .sleep _ _ => 0xFFFFFFFF
  | .in_ _ _ _ | .out _ _ _ | .outd _ _ _ | .outb _ _ _ | .outh _ _ _ | .outc _ _ _ => 0xFFFFFFFF
  | .add _ _ _ | .sub _ _ _ | .and _ _ _ | .or _ _ _ | .xor _ _ _ | .ls _ _ _ | .rs _ _ _ => 0xFFFFF800
  | .mul _ _ _ | .div _ _ _ | .mod _ _ _ => 0xFFFFF800
  | .addi _ _ _ | .subi _ _ _ | .andi _ _ _ | .ori _ _ _ | .xori _ _ _ | .lsi _ _ _ | .rsi _ _ _ => 0xFFFFFFFF
  | .j _ _ _ | .jal _ _ _ => 0xFFFFFFFF
  | .beq _ _ _ | .bne _ _ _ | .blt _ _ _ | .bge _ _ _ => 0xFFFFFFFF
  | .lw _ _ _ | .lb _ _ _ | .lh _ _ _ | .sw _ _ _ | .sb _ _ _ | .sh _ _ _ => 0xFFFFFFFF

/-! ### The decoder on a row of the opcode table -/

/-- The instruction the decoder reads from the word whose value is `w`, the bits above `nbits` zero. -/
def decodeTableWord (nbits w : Nat) : Option Instr :=
  match decodeBytes (bytesOfWord (BitVec.ofNat 32 (w % 2 ^ nbits))) with
  | .ok (i, _) => some i
  | .error _ => none

end Sys2Proof
end

