-- ==== Sys2Proof/Config.lean ====
section
/-! DEFINITION. The parameters of the CORE (00_scope R6) and what the spec leaves to the host or to an
implementation. A parameter whose value changes what an instruction does is plain data (`Config.Params`) that
State carries and no step writes, so that a statement about every state speaks of every value of it (log 1). A
constant here with no body is a free value: nothing can be proved about which value it is. -/

namespace Sys2Proof

/-- What a host device is asked to print a register value as: `dec`, `bin` or `hex` (00_scope R14). -/
inductive NumKind where
  | dec
  | bin
  | hex
deriving DecidableEq, Repr

/-- One entry of the run's observable output (40_cycle R106): every output, clear and delay call. -/
inductive Event where
  /-- `DevOut(bytes)`, by `OUT` (42_io R132). -/
  | out (bytes : List Byte)
  /-- `DevOutNum(kind, v)`, by `OUTD`, `OUTB` and `OUTH` (42_io R133 to R135): the 32-bit pattern. -/
  | outNum (kind : NumKind) (v : Word)
  /-- `DevOutChar(c)`, by `OUTC` (42_io R136): the code point. -/
  | outChar (codePoint : Nat)
  /-- `DevClear()`, by `CL` (42_io R137). -/
  | clear
  /-- `DevDelay(d)`, by `SLEEP` (41_ctl R122): whole seconds. -/
  | delay (seconds : Nat)
deriving DecidableEq, Repr

/-- One thing the input device can deliver: a byte, or the report of an input error (40_cycle R106, log 8). -/
inductive InputItem where
  | byte (b : Byte)
  | inputError
deriving DecidableEq, Repr

namespace Config

/-- `ctlIoImmWidth`: how many bits of a `CTL` or `IO` word are its immediate (30_encoding R65, 92 D5). -/
inductive ImmWidth where
  | w20
  | w21
deriving DecidableEq, Repr

/-- `shiftRule`: the whole unsigned 32-bit amount, or its low 5 bits (00_scope R6, 92 D7). -/
inductive ShiftRule where
  | wholeAmount
  | lowFiveBits
deriving DecidableEq, Repr

/-- `modRule`: the remainder has the sign of the dividend, or of the divisor (44_md R182, 92 D8). -/
inductive ModRule where
  | truncated
  | floored
deriving DecidableEq, Repr, Inhabited

/-- The parameters that change what an instruction does (00_scope R6); `memSize` is the length of the memory. -/
structure Params where
  ctlIoImmWidth : ImmWidth
  shiftRule : ShiftRule
  modRule : ModRule
deriving DecidableEq, Repr

/-- The reference value of `memSize` (92 D14). -/
def referenceMemSize : Nat := 8000

/-- The least `memSize` (92 D14). -/
def minMemSize : Nat := 4

/-- The greatest `memSize` (92 D14). -/
def maxMemSize : Nat := 2 ^ 30

/-- The rule `modRule` of this CORE, which the spec leaves OPEN (92 D8, log 3). DESIGN CHOICE: a free value. -/
opaque modRule : ModRule

/-- The parameters of the machine at reset: the values 00_scope R6 gives, and the open `modRule` (log 3, log 4). -/
def resetParams : Params :=
  { ctlIoImmWidth := .w21, shiftRule := .wholeAmount, modRule := Config.modRule }

/-- `outRender`: the text the host shows for an event other than a decimal number (92 D22, log 15). DESIGN CHOICE: a free
value. -/
opaque outRender : Event → List Byte

/-- The byte that the assembler's escape `\c` stands for (91 N14, log 14). DESIGN CHOICE: a free value. -/
opaque escapeByte : Char → Byte

end Config

end Sys2Proof
end

