-- ==== Sys2Proof/Machine/State.lean ====
section
/-! DEFINITION. The state of the machine (10_state R36, R37; the host's part: 40_cycle R106), its faults
(60_exceptions R231), the reasons it may answer no next state, and the state after reset (70_reset R260). -/

namespace Sys2Proof.Machine

/-- The fault kinds of 60_exceptions R231 with the information recorded (log 19); `cur` is the address of the
faulting instruction. A fault is a transition of the machine: the instruction's step answers a NEXT state whose run state is
`Faulted` (log 5). A step asked of that state answers this reason: the run has ended (10_state R31). -/
inductive Fault where
  /-- Code 1, raised by fetch, the loads and stores, `IN` and `OUT`: the access of `width` bytes at `addr` is not inside
  memory (20_memory R45). Safe: the spec's own fault. -/
  | memoryFault (cur : Word) (addr : Int) (width : Nat)
  /-- Code 2, raised by `IN` when the input device reports an input error (42_io R131). Safe: the spec's own fault. -/
  | inputFormatError (cur : Word)
  /-- Code 3, raised by decode on an illegal pair of opcode and function (30_encoding R70). Safe: the spec's own fault. -/
  | illegalInstruction (cur : Word) (word : Word)
  /-- Code 4, raised by `DIV` and `MOD` on a zero divisor (44_md R181, R182). Safe: the spec's own fault. -/
  | divideByZero (cur : Word)
  /-- Code 5, raised by `IN` with a negative count, `OUTC` with no code point, `SLEEP` with a negative duration
  (42_io R131, R136, 41_ctl R122). Safe: the spec's own fault. -/
  | ioArgumentFault (cur : Word)
deriving DecidableEq, Repr

/-- Why there is no next state although no fault is raised. -/
inductive Refusal where
  /-- Raised by exec's arm of an instruction that has no meaning in this model; no arm uses it. Safe. -/
  | notModelled (mnemonic : String)
  /-- Raised by `step` in run state `Halted`, from which no step is taken (10_state R31). Safe: the machine has no step. -/
  | halted
  /-- Raised by `IN` while fewer bytes remain than it asks for: stuck, a state with no enabled step that is neither
  `Halted` nor `Faulted` (00_scope R18, 42_io R131, log 7). Safe: the machine has no step. -/
  | blockedOnInput
deriving DecidableEq, Repr

/-- The run state (10_state R30). -/
inductive RunState where
  | running
  | halted
  | faulted (f : Fault)
deriving DecidableEq, Repr

/-- Memory: `size` bytes (`memSize`), as the list of its non-zero bytes by rising address; an address not listed reads as
0, the content of memory at reset where no image was loaded (20_memory R40, log 12). -/
structure Memory where
  size : Nat
  cells : List Host.Cell
deriving DecidableEq, Repr

/-- The registers x[1] to x[31]; x[0] is not stored (10_state R37). -/
abbrev RegFile := Vector Word 31

/-- The machine's state: 10_state R37, the host's streams of 40_cycle R106, and the parameters of 00_scope R6. -/
structure State where
  /-- x[1] to x[31] (10_state R20 to R22). -/
  regs : RegFile
  /-- The program counter, register slot 32 (10_state R25). -/
  pc : Word
  /-- M[0 .. memSize-1] (20_memory R40). -/
  mem : Memory
  /-- The run state (10_state R30). -/
  run : RunState
  /-- What the input device will still deliver, next item first (40_cycle R106, log 8). -/
  input : List InputItem
  /-- The event trace, oldest event first (40_cycle R106, log 9). -/
  events : List Event
  /-- The parameters (00_scope R6); no step writes them (log 1). -/
  cfg : Config.Params
deriving DecidableEq, Repr

/-- The machine right after reset, with no image loaded (70_reset R260, 10_state R36). x[1] to x[31] are 0 by DESIGN CHOICE
(log 2); the parameters are those of log 3 and log 4; no input and no events yet (log 8, log 9). -/
def State.reset : State :=
  { regs := Vector.replicate 31 0
    pc := 0
    mem := { size := Config.referenceMemSize, cells := [] }
    run := .running
    input := []
    events := []
    cfg := Config.resetParams }

end Sys2Proof.Machine
end

