-- ==== Sys2Proof/Machine/Ops.lean ====
section
/-! DEFINITION. The named operations over memory, registers, devices and the run state, each written once: the
primitives of 00_scope R11 to R14 and the one way to raise a fault (60_exceptions R230). -/

namespace Sys2Proof.Machine

/-! ### Memory: one byte (20_memory R40; the canonical form of log 12) -/

/-- Addresses strictly rising and no listed byte 0. -/
def canonicalCells : List Host.Cell → Bool
  | [] => true
  | (a, v) :: rest => v != 0 && rest.all (fun c => decide (a < c.1)) && canonicalCells rest

/-- The memory's list is canonical and lists no address outside [0, memSize). -/
def Memory.wf (m : Memory) : Bool :=
  canonicalCells m.cells && m.cells.all (fun c => decide (c.1 < m.size))

/-- The byte a list of cells gives an address; 0 where it lists none (20_memory R40: zero-filled). -/
def lookupCell : List Host.Cell → Nat → Byte
  | [], _ => 0
  | (b, v) :: rest, a => if b = a then v else lookupCell rest a

/-- The cells after writing `v` at `a`, in canonical form. -/
def insertCell : List Host.Cell → Nat → Byte → List Host.Cell
  | [], a, v => if v = 0 then [] else [(a, v)]
  | (b, u) :: rest, a, v =>
    if b < a then (b, u) :: insertCell rest a v
    else if b = a then (if v = 0 then rest else (a, v) :: rest)
    else (if v = 0 then (b, u) :: rest else (a, v) :: (b, u) :: rest)

/-- M[a]. -/
def Memory.readByte (m : Memory) (a : Nat) : Byte := lookupCell m.cells a

/-- M[a] <- v. -/
def Memory.writeByte (m : Memory) (a : Nat) (v : Byte) : Memory :=
  { m with cells := insertCell m.cells a v }

/-! ### Memory: ranges and the three widths (20_memory R42 to R44, 00_scope R12) -/

/-- The `n` bytes at a, a+1, ... -/
def Memory.readBytes (m : Memory) (a : Nat) : Nat → List Byte
  | 0 => []
  | n + 1 => m.readByte a :: m.readBytes (a + 1) n

/-- The bytes stored at a, a+1, ... -/
def Memory.writeBytes (m : Memory) (a : Nat) : List Byte → Memory
  | [] => m
  | b :: bs => (m.writeByte a b).writeBytes (a + 1) bs

/-- The widths of loads, stores and fetch (20_memory R44). -/
inductive Width where
  | byte
  | half
  | word
deriving DecidableEq, Repr

/-- The width in bytes. -/
def Width.bytes : Width → Nat
  | .byte => 1
  | .half => 2
  | .word => 4

/-- `MemRead(a, n)`, zero-extended to a register's width; big-endian (00_scope R12, 47_mem R211 to R213). -/
def Memory.load (m : Memory) (a : Nat) : Width → Word
  | .byte => (m.readByte a).setWidth 32
  | .half => halfOfBytes (m.readByte a) (m.readByte (a + 1))
  | .word => wordOfBytes (m.readByte a) (m.readByte (a + 1)) (m.readByte (a + 2)) (m.readByte (a + 3))

/-- The bytes `MemWrite` stores, lowest address first: the low bytes of the value, big-endian (00_scope R12). -/
def storedBytes (v : Word) : Width → List Byte
  | .byte => [byteOf v 0]
  | .half => [byteOf v 1, byteOf v 0]
  | .word => bytesOfWord v

/-- `MemWrite(a, n, v)` (00_scope R12). -/
def Memory.store (m : Memory) (a : Nat) (w : Width) (v : Word) : Memory := m.writeBytes a (storedBytes v w)

/-- The bounds check: the `n` bytes at the integer address `addr` are all inside memory (20_memory R45). -/
abbrev Memory.InBounds (m : Memory) (addr : Int) (n : Nat) : Prop := 0 ≤ addr ∧ addr + n ≤ m.size

/-! ### Registers (00_scope R11) -/

/-- x[r]; x[0] reads 0 (10_state R21). -/
def State.reg (s : State) : Reg → Word
  | ⟨0, _⟩ => 0
  | ⟨k + 1, h⟩ => s.regs[k]'(by omega)

/-- x[r] <- v; a write to x[0] is discarded (10_state R21). -/
def State.setReg (s : State) (r : Reg) (v : Word) : State :=
  match r with
  | ⟨0, _⟩ => s
  | ⟨k + 1, h⟩ => { s with regs := s.regs.set k v (by omega) }

/-! ### The pc, the run state, the event trace -/

/-- pc <- t, the explicit target, unmodified (40_cycle R103). -/
def State.jumpTo (s : State) (t : Word) : State := { s with pc := t }

/-- pc <- to32(cur + 4) (10_state R27, 40_cycle R103). -/
def State.advance (s : State) : State := { s with pc := s.pc + 4 }

/-- The memory replaced. -/
def State.setMem (s : State) (m : Memory) : State := { s with mem := m }

/-- What the input device will still deliver, replaced. -/
def State.setInput (s : State) (items : List InputItem) : State := { s with input := items }

/-- A device call appended to the event trace (40_cycle R106). -/
def State.emit (s : State) (e : Event) : State := { s with events := s.events ++ [e] }

/-- run <- Halted (41_ctl R120). -/
def State.setHalted (s : State) : State := { s with run := .halted }

/-- The state in which the machine has taken the fault `f`: the run state changes and nothing else, the pc stays at the
faulting instruction (60_exceptions R230, R232). -/
def State.setFaulted (s : State) (f : Fault) : State := { s with run := .faulted f }

/-- `raise f`: taking a fault, the one shared operation (00_scope R13, 60_exceptions R230, R232, log 5). No register, memory,
pc or device effect of the instruction takes place. There is no return from a fault (60_exceptions R236). -/
def raise (f : Fault) (s : State) : Host.Outcome State Fault Refusal := .next (s.setFaulted f)

/-- The instruction completes without an explicit target: the pc advances (40_cycle R103). -/
def complete (s : State) : Host.Outcome State Fault Refusal := .next s.advance

/-- x[r] <- v, and the pc advances: how every `ALUR`, `ALUI`, `MD` and load ends (40_cycle R102, R103). -/
def completeWith (r : Reg) (v : Word) (s : State) : Host.Outcome State Fault Refusal := complete (s.setReg r v)

/-- The code of a fault kind (60_exceptions R231). -/
def Fault.code : Fault → Nat
  | .memoryFault _ _ _ => 1
  | .inputFormatError _ => 2
  | .illegalInstruction _ _ => 3
  | .divideByZero _ => 4
  | .ioArgumentFault _ => 5

/-! ### The input device (40_cycle R106, log 8) -/

/-- What `DevIn(n)` answers. -/
inductive DevInResult where
  /-- The bytes, and what the device will still deliver. -/
  | bytes (bs : List Byte) (rest : List InputItem)
  /-- The device reports an input error before it has delivered the bytes. -/
  | inputError
  /-- Fewer bytes remain than were asked for, and no more will come. -/
  | blocked
deriving DecidableEq, Repr

/-- A byte delivered ahead of an answer. -/
def DevInResult.cons (b : Byte) : DevInResult → DevInResult
  | .bytes bs rest => .bytes (b :: bs) rest
  | .inputError => .inputError
  | .blocked => .blocked

/-- `DevIn(n)`: the next `n` bytes, an input error met among them, or no answer (40_cycle R106). -/
def devIn : Nat → List InputItem → DevInResult
  | 0, items => .bytes [] items
  | _ + 1, [] => .blocked
  | _ + 1, .inputError :: _ => .inputError
  | n + 1, .byte b :: items => (devIn n items).cons b

/-! ### Fetch (40_cycle R101) -/

/-- The word at the pc, or the fault of its bounds check; the address is unsigned(pc). -/
def fetch (s : State) : Except Fault Word :=
  if s.mem.InBounds s.pc.toNat Width.word.bytes then .ok (s.mem.load s.pc.toNat .word)
  else .error (.memoryFault s.pc s.pc.toNat Width.word.bytes)

end Sys2Proof.Machine
end

