-- ==== Sys2Proof/Machine/Operands.lean ====
section
/-! DEFINITION. Operand forms: what an immediate stands for, the addresses and sums of `MEM` and `IO`, and the
functions of the ALU and of `MD` (30_encoding R64, R65, 20_memory R46, 42_io R130, 43_alu, 44_md). -/

namespace Sys2Proof.Machine

/-- to32(i) = i mod 2^32 (00_scope R8). -/
def to32 (i : Int) : Word := BitVec.ofInt 32 i

/-! ### Immediates -/

/-- imm16 = sext_16(word[15:0]) (30_encoding R64). -/
def imm16 (imm : BitVec 16) : Int := imm.toInt

/-- to32(imm16): the second operand of `ALUI`, the target of `BRANCH`. -/
def imm16Word (imm : BitVec 16) : Word := imm.signExtend 32

/-- imm21 = sext_W(word[W-1:0]) with W = ctlIoImmWidth (30_encoding R65). -/
def imm21 (w : Config.ImmWidth) (imm : BitVec 21) : Int :=
  match w with
  | .w21 => imm.toInt
  | .w20 => (imm.setWidth 20).toInt

/-! ### Addresses and sums -/

/-- A = signed(x[base]) + imm16, the integer address of a load or store (20_memory R46, 47_mem R210). -/
def State.memAddr (s : State) (base : Reg) (imm : BitVec 16) : Int := (s.reg base).toInt + imm16 imm

/-- signed(x[ra]) + imm21, the integer address `x + z` of `IN` and `OUT` (20_memory R46, 42_io R131, R132). -/
def State.ioAddr (s : State) (ra : Reg) (imm : BitVec 21) : Int :=
  (s.reg ra).toInt + imm21 s.cfg.ctlIoImmWidth imm

/-- to32(x[ra] + imm21), the value `x + z` of `SLEEP` and of the outputs (41_ctl R122, 42_io R133 to R136). -/
def State.ioSum (s : State) (ra : Reg) (imm : BitVec 21) : Word :=
  s.reg ra + to32 (imm21 s.cfg.ctlIoImmWidth imm)

/-- n, how many bytes `IN` reads: 1 if y is 0, else y - x as integers (42_io R131). -/
def inCount (x y : Word) : Int := if y = 0 then 1 else y.toInt - x.toInt

/-! ### Shifts (43_alu R155, R156, R162, R163) -/

/-- The shift amount, by shiftRule (00_scope R6, 92 D7). -/
def shiftAmount (rule : Config.ShiftRule) (b : Word) : Nat :=
  match rule with
  | .wholeAmount => b.toNat
  | .lowFiveBits => b.toNat % 32

/-- Logical left shift: an amount of 32 or more gives 0. -/
def shiftLeft (rule : Config.ShiftRule) (a b : Word) : Word :=
  if 32 ≤ shiftAmount rule b then 0 else a <<< shiftAmount rule b

/-- Logical right shift: an amount of 32 or more gives 0. -/
def shiftRight (rule : Config.ShiftRule) (a b : Word) : Word :=
  if 32 ≤ shiftAmount rule b then 0 else a >>> shiftAmount rule b

/-! ### Division (44_md R181, R182); the divisor is not 0 where these are used -/

/-- to32(tdiv(a, b)): the quotient truncated toward zero. -/
def quotient (a b : Word) : Word := to32 (a.toInt.tdiv b.toInt)

/-- to32(a - b * q) with q truncated or floored, by modRule. -/
def remainder (rule : Config.ModRule) (a b : Word) : Word :=
  match rule with
  | .truncated => to32 (a.toInt - b.toInt * a.toInt.tdiv b.toInt)
  | .floored => to32 (a.toInt - b.toInt * a.toInt.fdiv b.toInt)

/-! ### Code points (42_io R136) -/

/-- The greatest code point: 0x10FFFF. -/
def maxCodePoint : Int := 0x10FFFF

end Sys2Proof.Machine
end

