-- ==== Sys2Proof/Machine/Alu.lean ====
section
/-! DEFINITION. The meanings of categories `ALUR` and `ALUI` (43_alu): one form for each category over the function the
instruction names. Both operands are read before the result is written; results wrap modulo 2^32. -/

namespace Sys2Proof.Machine

/-- x[ra] <- alu(x[rb], x[rc]) (40_cycle R102). -/
def aluReg (f : Word → Word → Word) (ra rb rc : Reg) (s : State) : Host.Outcome State Fault Refusal :=
  completeWith ra (f (s.reg rb) (s.reg rc)) s

/-- x[ra] <- alu(x[rb], to32(imm16)) (40_cycle R102). -/
def aluImm (f : Word → Word → Word) (ra rb : Reg) (imm : BitVec 16) (s : State) : Host.Outcome State Fault Refusal :=
  completeWith ra (f (s.reg rb) (imm16Word imm)) s

/-- `ADD` (43_alu R150). -/
def execAdd (ra rb rc : Reg) (s : State) : Host.Outcome State Fault Refusal := aluReg (fun a b => a + b) ra rb rc s

/-- `SUB` (43_alu R151). -/
def execSub (ra rb rc : Reg) (s : State) : Host.Outcome State Fault Refusal := aluReg (fun a b => a - b) ra rb rc s

/-- `AND` (43_alu R152). -/
def execAnd (ra rb rc : Reg) (s : State) : Host.Outcome State Fault Refusal := aluReg (fun a b => a &&& b) ra rb rc s

/-- `OR` (43_alu R153). -/
def execOr (ra rb rc : Reg) (s : State) : Host.Outcome State Fault Refusal := aluReg (fun a b => a ||| b) ra rb rc s

/-- `XOR` (43_alu R154). -/
def execXor (ra rb rc : Reg) (s : State) : Host.Outcome State Fault Refusal := aluReg (fun a b => a ^^^ b) ra rb rc s

/-- `LS` (43_alu R155): logical left shift. -/
def execLs (ra rb rc : Reg) (s : State) : Host.Outcome State Fault Refusal :=
  aluReg (shiftLeft s.cfg.shiftRule) ra rb rc s

/-- `RS` (43_alu R156): logical right shift. -/
def execRs (ra rb rc : Reg) (s : State) : Host.Outcome State Fault Refusal :=
  aluReg (shiftRight s.cfg.shiftRule) ra rb rc s

/-- `ADDI` (43_alu R157). -/
def execAddi (ra rb : Reg) (imm : BitVec 16) (s : State) : Host.Outcome State Fault Refusal :=
  aluImm (fun a b => a + b) ra rb imm s

/-- `SUBI` (43_alu R158). -/
def execSubi (ra rb : Reg) (imm : BitVec 16) (s : State) : Host.Outcome State Fault Refusal :=
  aluImm (fun a b => a - b) ra rb imm s

/-- `ANDI` (43_alu R159). -/
def execAndi (ra rb : Reg) (imm : BitVec 16) (s : State) : Host.Outcome State Fault Refusal :=
  aluImm (fun a b => a &&& b) ra rb imm s

/-- `ORI` (43_alu R160). -/
def execOri (ra rb : Reg) (imm : BitVec 16) (s : State) : Host.Outcome State Fault Refusal :=
  aluImm (fun a b => a ||| b) ra rb imm s

/-- `XORI` (43_alu R161). -/
def execXori (ra rb : Reg) (imm : BitVec 16) (s : State) : Host.Outcome State Fault Refusal :=
  aluImm (fun a b => a ^^^ b) ra rb imm s

/-- `LSI` (43_alu R162): logical left shift by the immediate. -/
def execLsi (ra rb : Reg) (imm : BitVec 16) (s : State) : Host.Outcome State Fault Refusal :=
  aluImm (shiftLeft s.cfg.shiftRule) ra rb imm s

/-- `RSI` (43_alu R163): logical right shift by the immediate. -/
def execRsi (ra rb : Reg) (imm : BitVec 16) (s : State) : Host.Outcome State Fault Refusal :=
  aluImm (shiftRight s.cfg.shiftRule) ra rb imm s

end Sys2Proof.Machine
end

