-- ==== Sys2Proof/Machine/Flags.lean ====
section
/-! DEFINITION. The CORE has no flag register and no instruction computes a flag (10_state R32). What stands where
other machines test flags is the condition table of `BRANCH`, evaluated directly on two registers (46_branch R200). -/

namespace Sys2Proof.Machine

/-- `EQ`: equal 32-bit patterns (46_branch R201). -/
def condEq (a b : Word) : Bool := a == b

/-- `NE`: different 32-bit patterns (46_branch R202). -/
def condNe (a b : Word) : Bool := a != b

/-- `LT`: signed less than (46_branch R203). -/
def condLt (a b : Word) : Bool := decide (a.toInt < b.toInt)

/-- `GE`: signed greater or equal (46_branch R204). -/
def condGe (a b : Word) : Bool := decide (b.toInt ≤ a.toInt)

end Sys2Proof.Machine
end

