-- ==== Sys2Proof/Machine/Branch.lean ====
section
/-! DEFINITION. The meanings of category `BRANCH`: BEQ, BNE, BLT, BGE (46_branch). -/

namespace Sys2Proof.Machine

/-- If the condition holds of x[ra] and x[rb], the pc becomes to32(imm16), an absolute address; else it advances
(46_branch R200). -/
def branchIf (cond : Word → Word → Bool) (ra rb : Reg) (imm : BitVec 16) (s : State) : Host.Outcome State Fault Refusal :=
  if cond (s.reg ra) (s.reg rb) then .next (s.jumpTo (imm16Word imm)) else complete s

/-- `BEQ` (46_branch R201). -/
def execBeq (ra rb : Reg) (imm : BitVec 16) (s : State) : Host.Outcome State Fault Refusal :=
  branchIf condEq ra rb imm s

/-- `BNE` (46_branch R202). -/
def execBne (ra rb : Reg) (imm : BitVec 16) (s : State) : Host.Outcome State Fault Refusal :=
  branchIf condNe ra rb imm s

/-- `BLT` (46_branch R203). -/
def execBlt (ra rb : Reg) (imm : BitVec 16) (s : State) : Host.Outcome State Fault Refusal :=
  branchIf condLt ra rb imm s

/-- `BGE` (46_branch R204). -/
def execBge (ra rb : Reg) (imm : BitVec 16) (s : State) : Host.Outcome State Fault Refusal :=
  branchIf condGe ra rb imm s

end Sys2Proof.Machine
end

