-- ==== Sys2Proof/Machine/Ctl.lean ====
section
/-! DEFINITION. The meanings of category `CTL`: HALT, NOP, SLEEP (41_ctl). -/

namespace Sys2Proof.Machine

/-- `HALT` (41_ctl R120): the run state becomes `Halted`, and the pc advances as usual. -/
def execHalt (s : State) : Host.Outcome State Fault Refusal := complete s.setHalted

/-- `NOP` (41_ctl R121). -/
def execNop (s : State) : Host.Outcome State Fault Refusal := complete s

/-- `SLEEP` (41_ctl R122): a delay of signed(to32(x[ra] + imm21)) seconds, a fault if negative; no time passes in the
model, the delay is an event (log 18). -/
def execSleep (ra : Reg) (imm : BitVec 21) (s : State) : Host.Outcome State Fault Refusal :=
  if (s.ioSum ra imm).toInt < 0 then raise (.ioArgumentFault s.pc) s
  else complete (s.emit (.delay (s.ioSum ra imm).toInt.toNat))

end Sys2Proof.Machine
end

