-- ==== Sys2Proof/Machine/Io.lean ====
section
/-! DEFINITION. The meanings of category `IO`: IN, OUT, OUTD, OUTB, OUTH, OUTC, CL (42_io). The checks of each stand in
the order of 42_io R138: the argument, the memory range, the device. -/

namespace Sys2Proof.Machine

/-- `IN` (42_io R131): `n` bytes from the input device into memory at `x + z`. -/
def execIn (ra rb : Reg) (imm : BitVec 21) (s : State) : Host.Outcome State Fault Refusal :=
  let n := inCount (s.reg ra) (s.reg rb)
  let addr := s.ioAddr ra imm
  if n < 0 then raise (.ioArgumentFault s.pc) s
  else if n = 0 then complete s
  else if s.mem.InBounds addr n.toNat then
    match devIn n.toNat s.input with
    | .bytes bs rest => complete ((s.setMem (s.mem.writeBytes addr.toNat bs)).setInput rest)
    | .inputError => raise (.inputFormatError s.pc) s
    | .blocked => .refused .blockedOnInput
  else raise (.memoryFault s.pc addr n.toNat) s

/-- `OUT` (42_io R132): the bytes of [x+z, y) to the output device; an empty range does nothing. -/
def execOut (ra rb : Reg) (imm : BitVec 21) (s : State) : Host.Outcome State Fault Refusal :=
  let start := s.ioAddr ra imm
  let stop := (s.reg rb).toInt
  if start < stop then
    if s.mem.InBounds start (stop - start).toNat then
      complete (s.emit (.out (s.mem.readBytes start.toNat (stop - start).toNat)))
    else raise (.memoryFault s.pc start (stop - start).toNat) s
  else complete s

/-- `x + z` to the output device as a number of the given kind: the common form of R133 to R135. -/
def outNumber (kind : NumKind) (ra : Reg) (imm : BitVec 21) (s : State) : Host.Outcome State Fault Refusal :=
  complete (s.emit (.outNum kind (s.ioSum ra imm)))

/-- `OUTD` (42_io R133): decimal. -/
def execOutd (ra : Reg) (imm : BitVec 21) (s : State) : Host.Outcome State Fault Refusal := outNumber .dec ra imm s

/-- `OUTB` (42_io R134): binary. -/
def execOutb (ra : Reg) (imm : BitVec 21) (s : State) : Host.Outcome State Fault Refusal := outNumber .bin ra imm s

/-- `OUTH` (42_io R135): hexadecimal. -/
def execOuth (ra : Reg) (imm : BitVec 21) (s : State) : Host.Outcome State Fault Refusal := outNumber .hex ra imm s

/-- `OUTC` (42_io R136): the character whose code point is `x + z`, a fault if that is no code point. -/
def execOutc (ra : Reg) (imm : BitVec 21) (s : State) : Host.Outcome State Fault Refusal :=
  let c := (s.ioSum ra imm).toInt
  if c < 0 ∨ maxCodePoint < c then raise (.ioArgumentFault s.pc) s
  else complete (s.emit (.outChar c.toNat))

/-- `CL` (42_io R137). -/
def execCl (s : State) : Host.Outcome State Fault Refusal := complete (s.emit .clear)

end Sys2Proof.Machine
end

