-- ==== Sys2Proof/Machine/Jump.lean ====
section
/-! DEFINITION. The meanings of category `JUMP`: J, JAL (45_jump). -/

namespace Sys2Proof.Machine

/-- Link, then jump: x[ra] <- cur, and the base x[rb] is read after that write (45_jump R190). -/
def linkAndJump (ra rb : Reg) (imm : BitVec 16) (s : State) : Host.Outcome State Fault Refusal :=
  let linked := s.setReg ra s.pc
  .next (linked.jumpTo (linked.reg rb + imm16Word imm))

/-- `J` (45_jump R191): it writes the link like `JAL` (90_conflicts C3). -/
def execJ (ra rb : Reg) (imm : BitVec 16) (s : State) : Host.Outcome State Fault Refusal := linkAndJump ra rb imm s

/-- `JAL` (45_jump R192). -/
def execJal (ra rb : Reg) (imm : BitVec 16) (s : State) : Host.Outcome State Fault Refusal := linkAndJump ra rb imm s

end Sys2Proof.Machine
end

