-- ==== Sys2Proof/Machine/Md.lean ====
section
/-! DEFINITION. The meanings of category `MD`: MUL, DIV, MOD (44_md). -/

namespace Sys2Proof.Machine

/-- `MUL` (44_md R180): the low 32 bits of the product. -/
def execMul (ra rb rc : Reg) (s : State) : Host.Outcome State Fault Refusal :=
  completeWith ra (s.reg rb * s.reg rc) s

/-- x[ra] <- f(x[rb], x[rc]), a fault if the divisor is 0: the common form of R181 and R182. -/
def divide (f : Word → Word → Word) (ra rb rc : Reg) (s : State) : Host.Outcome State Fault Refusal :=
  if s.reg rc = 0 then raise (.divideByZero s.pc) s else completeWith ra (f (s.reg rb) (s.reg rc)) s

/-- `DIV` (44_md R181). -/
def execDiv (ra rb rc : Reg) (s : State) : Host.Outcome State Fault Refusal := divide quotient ra rb rc s

/-- `MOD` (44_md R182), by modRule. -/
def execMod (ra rb rc : Reg) (s : State) : Host.Outcome State Fault Refusal :=
  divide (remainder s.cfg.modRule) ra rb rc s

end Sys2Proof.Machine
end

