-- ==== Sys2Proof/Machine/Mem.lean ====
section
/-! DEFINITION. The meanings of category `MEM`: LW, LB, LH, SW, SB, SH (47_mem). -/

namespace Sys2Proof.Machine

/-- x[ra] <- MemRead(signed(x[rb]) + imm16, n), zero-extended; a fault out of bounds (47_mem R210). -/
def loadFrom (w : Width) (ra rb : Reg) (imm : BitVec 16) (s : State) : Host.Outcome State Fault Refusal :=
  let addr := s.memAddr rb imm
  if s.mem.InBounds addr w.bytes then completeWith ra (s.mem.load addr.toNat w) s
  else raise (.memoryFault s.pc addr w.bytes) s

/-- MemWrite(signed(x[ra]) + imm16, n, x[rb]); a fault out of bounds writes nothing (47_mem R210). -/
def storeTo (w : Width) (ra rb : Reg) (imm : BitVec 16) (s : State) : Host.Outcome State Fault Refusal :=
  let addr := s.memAddr ra imm
  if s.mem.InBounds addr w.bytes then complete (s.setMem (s.mem.store addr.toNat w (s.reg rb)))
  else raise (.memoryFault s.pc addr w.bytes) s

/-- `LW` (47_mem R211). -/
def execLw (ra rb : Reg) (imm : BitVec 16) (s : State) : Host.Outcome State Fault Refusal :=
  loadFrom .word ra rb imm s

/-- `LB` (47_mem R212). -/
def execLb (ra rb : Reg) (imm : BitVec 16) (s : State) : Host.Outcome State Fault Refusal :=
  loadFrom .byte ra rb imm s

/-- `LH` (47_mem R213). -/
def execLh (ra rb : Reg) (imm : BitVec 16) (s : State) : Host.Outcome State Fault Refusal :=
  loadFrom .half ra rb imm s

/-- `SW` (47_mem R214). -/
def execSw (ra rb : Reg) (imm : BitVec 16) (s : State) : Host.Outcome State Fault Refusal :=
  storeTo .word ra rb imm s

/-- `SB` (47_mem R215). -/
def execSb (ra rb : Reg) (imm : BitVec 16) (s : State) : Host.Outcome State Fault Refusal :=
  storeTo .byte ra rb imm s

/-- `SH` (47_mem R216). -/
def execSh (ra rb : Reg) (imm : BitVec 16) (s : State) : Host.Outcome State Fault Refusal :=
  storeTo .half ra rb imm s

end Sys2Proof.Machine
end

