-- ==== Sys2Proof/Machine/Dispatch.lean ====
section
/-! DEFINITION. Execute: one arm per instruction (40_cycle R102). The meanings do not consult the run state; `step` does
(log 6). -/

namespace Sys2Proof.Machine

def exec (i : Instr) (s : State) : Host.Outcome State Fault Refusal :=
  match i with
  | .halt => Sys2Proof.Machine.execHalt s
  | .nop => Sys2Proof.Machine.execNop s
  | .sleep ra imm => Sys2Proof.Machine.execSleep ra imm s
  | .in_ ra rb imm => Sys2Proof.Machine.execIn ra rb imm s
  | .out ra rb imm => Sys2Proof.Machine.execOut ra rb imm s
  | .outd ra _ imm => Sys2Proof.Machine.execOutd ra imm s
  | .outb ra _ imm => Sys2Proof.Machine.execOutb ra imm s
  | .outh ra _ imm => Sys2Proof.Machine.execOuth ra imm s
  | .outc ra _ imm => Sys2Proof.Machine.execOutc ra imm s
  | .cl => Sys2Proof.Machine.execCl s
  | .add ra rb rc => Sys2Proof.Machine.execAdd ra rb rc s
  | .sub ra rb rc => Sys2Proof.Machine.execSub ra rb rc s
  | .and ra rb rc => Sys2Proof.Machine.execAnd ra rb rc s
  | .or ra rb rc => Sys2Proof.Machine.execOr ra rb rc s
  | .xor ra rb rc => Sys2Proof.Machine.execXor ra rb rc s
  | .ls ra rb rc => Sys2Proof.Machine.execLs ra rb rc s
  | .rs ra rb rc => Sys2Proof.Machine.execRs ra rb rc s
  | .addi ra rb imm => Sys2Proof.Machine.execAddi ra rb imm s
  | .subi ra rb imm => Sys2Proof.Machine.execSubi ra rb imm s
  | .andi ra rb imm => Sys2Proof.Machine.execAndi ra rb imm s
  | .ori ra rb imm => Sys2Proof.Machine.execOri ra rb imm s
  | .xori ra rb imm => Sys2Proof.Machine.execXori ra rb imm s
  | .lsi ra rb imm => Sys2Proof.Machine.execLsi ra rb imm s
  | .rsi ra rb imm => Sys2Proof.Machine.execRsi ra rb imm s
  | .mul ra rb rc => Sys2Proof.Machine.execMul ra rb rc s
  | .div ra rb rc => Sys2Proof.Machine.execDiv ra rb rc s
  | .mod ra rb rc => Sys2Proof.Machine.execMod ra rb rc s
  | .j ra rb imm => Sys2Proof.Machine.execJ ra rb imm s
  | .jal ra rb imm => Sys2Proof.Machine.execJal ra rb imm s
  | .beq ra rb imm => Sys2Proof.Machine.execBeq ra rb imm s
  | .bne ra rb imm => Sys2Proof.Machine.execBne ra rb imm s
  | .blt ra rb imm => Sys2Proof.Machine.execBlt ra rb imm s
  | .bge ra rb imm => Sys2Proof.Machine.execBge ra rb imm s
  | .lw ra rb imm => Sys2Proof.Machine.execLw ra rb imm s
  | .lb ra rb imm => Sys2Proof.Machine.execLb ra rb imm s
  | .lh ra rb imm => Sys2Proof.Machine.execLh ra rb imm s
  | .sw ra rb imm => Sys2Proof.Machine.execSw ra rb imm s
  | .sb ra rb imm => Sys2Proof.Machine.execSb ra rb imm s
  | .sh ra rb imm => Sys2Proof.Machine.execSh ra rb imm s

end Sys2Proof.Machine
end

