-- ==== Sys2Proof/Machine/Cycle.lean ====
section
/-! DEFINITION. The step of a running machine: fetch, decode, execute with its write-back of the pc (40_cycle R100 to
R103). -/

namespace Sys2Proof.Machine

/-- Decode and execute a fetched word; an illegal pair raises `IllegalInstruction(word)` (40_cycle R102). -/
def runWord (w : Word) (s : State) : Host.Outcome State Fault Refusal :=
  match decodeWord w with
  | .ok i => exec i s
  | .error _ => raise (.illegalInstruction s.pc w) s

/-- One step in run state `Running` (40_cycle R100). -/
def cycle (s : State) : Host.Outcome State Fault Refusal :=
  match fetch s with
  | .ok w => runWord w s
  | .error f => raise f s

/-- A word stored at the pc, in the byte order fetch reads; where fetch would fault, nothing is stored (log 10). -/
def placeAtPc (w : Word) (s : State) : State :=
  if s.mem.InBounds s.pc.toNat Width.word.bytes then s.setMem (s.mem.store s.pc.toNat .word w) else s

end Sys2Proof.Machine
end

