-- ==== Sys2Proof/Machine/Step.lean ====
section
/-! DEFINITION. The step of the machine, guarded by the run state (40_cycle R100, 10_state R31), and the placing of a word
where it fetches. -/

namespace Sys2Proof.Machine

/-- One step: taken only in `Running`; `Halted` and `Faulted` are terminal (10_state R31, log 5, log 6). -/
def step (s : State) : Host.Outcome State Fault Refusal :=
  match s.run with
  | .running => cycle s
  | .halted => .refused .halted
  | .faulted f => .fault f

/-- `s` with the instruction whose value is `w` (bits from `nbits` up zero) stored where the next fetch reads (log 10). -/
def State.withFetchWord (s : State) (nbits w : Nat) : State := placeAtPc (BitVec.ofNat 32 (w % 2 ^ nbits)) s

end Sys2Proof.Machine
end

