-- ==== Sys2Proof/Machine/Assembler.lean ====
section
/-! DEFINITION. The assembler of 30_encoding section 5 (00_scope R4(g)): from source text to the binary image. It is
software outside the hardware; nothing in the machine reads it. Points the spec leaves open are log 13 and log 14. -/

namespace Sys2Proof.Machine.Asm

/-- A source text, a token, a name: characters. -/
abbrev Text := List Char

/-- `AssemblySyntaxError`: the statement that matches no pattern (30_encoding R92). -/
inductive AsmError where
  | assemblySyntaxError (statement : List Text)
deriving DecidableEq, Repr

/-! ### Lines and tokens (30_encoding R80, R81) -/

/-- The lines of a text, without their ends. -/
def splitLines : Text → List Text
  | [] => [[]]
  | c :: cs =>
    match splitLines cs with
    | [] => [[c]]
    | l :: ls => if c = '\n' then [] :: l :: ls else (c :: l) :: ls

/-- A blank between tokens. -/
def isBlank (c : Char) : Bool := c == ' ' || c == '\t' || c == '\r'

/-- A finished token in front of the later ones, if it has a character; it is collected in reverse. -/
def flush (cur : Text) (later : List Text) : List Text :=
  match cur with
  | [] => later
  | _ :: _ => cur.reverse :: later

/-- The tokens of a line: separated by blanks, but a quoted literal is one token (log 13). `quote` is the open quote,
`escaped` says that the last character was a backslash that is not itself escaped, `cur` is the token so far in reverse. DESIGN
CHOICE (log 13): inside quotes and outside them, the character after a backslash belongs to the token as it stands, so a quote
there neither opens nor closes a literal and a blank there separates no tokens. -/
def tokensFrom (quote : Option Char) (escaped : Bool) (cur : Text) : Text → List Text
  | [] => flush cur []
  | c :: cs =>
    if escaped then tokensFrom quote false (c :: cur) cs
    else if c = '\\' then tokensFrom quote true (c :: cur) cs
    else
      match quote with
      | some q => tokensFrom (if c = q then none else quote) false (c :: cur) cs
      | none =>
        if isBlank c then flush cur (tokensFrom none false [] cs)
        else tokensFrom (if c = '"' ∨ c = '\'' then some c else none) false (c :: cur) cs

/-- The tokens of a line (30_encoding R81). -/
def tokens (line : Text) : List Text := tokensFrom none false [] line

/-- A non-comment line: a label declaration or a statement (30_encoding R80). -/
inductive Item where
  | label (name : Text)
  | statement (toks : List Text)
deriving DecidableEq, Repr

/-- The line without blanks at its ends. -/
def trim (line : Text) : Text := ((line.dropWhile isBlank).reverse.dropWhile isBlank).reverse

/-- What a line is; comment lines and blank lines are discarded (30_encoding R80). DESIGN CHOICE (log 13): the spec says only that a
label declaration is text ending in a colon; a label's name here is everything before that colon on the trimmed line, blanks
between the text and the colon included, so that `end :` names a label that no token matches. -/
def parseLine (line : Text) : Option Item :=
  match trim line with
  | [] => none
  | c :: cs =>
    if c = '#' then none
    else if (c :: cs).getLast? = some ':' then some (.label (c :: cs).dropLast)
    else some (.statement (tokens (c :: cs)))

/-- The labels and statements of a source text, in order. -/
def parseSource (source : Text) : List Item := (splitLines source).filterMap parseLine

/-! ### Literals (30_encoding R82) -/

/-- The value of a digit in a base, if it is one. -/
def digitValue (base : Nat) (c : Char) : Option Nat :=
  let n := c.toNat
  let v := if 48 ≤ n ∧ n ≤ 57 then n - 48 else if 97 ≤ n ∧ n ≤ 102 then n - 87
    else if 65 ≤ n ∧ n ≤ 70 then n - 55 else base
  if v < base then some v else none

/-- The value of a string of digits, most significant first, continuing from `acc`. -/
def digitsFrom (base acc : Nat) : Text → Option Nat
  | [] => some acc
  | c :: cs =>
    match digitValue base c with
    | some d => digitsFrom base (acc * base + d) cs
    | none => none

/-- The value of a string of at least one digit. -/
def digits (base : Nat) : Text → Option Nat
  | [] => none
  | c :: cs => digitsFrom base 0 (c :: cs)

/-- A numeric literal: decimal with an optional minus sign, `0b` binary, `0x` hexadecimal (30_encoding R82). -/
def numericLiteral : Text → Option Int
  | '-' :: cs => (digits 10 cs).map (fun n => -(n : Int))
  | '0' :: 'b' :: cs => (digits 2 cs).map (fun n => (n : Int))
  | '0' :: 'x' :: cs => (digits 16 cs).map (fun n => (n : Int))
  | cs => (digits 10 cs).map (fun n => (n : Int))

/-- A character literal: the code point of the character between the quotes (30_encoding R82, R91). DESIGN CHOICE (log 13): one
backslash between single quotes is no character literal, a backslash there only begins an escape; a single quote or a double
quote is a character like any other. -/
def charLiteral : Text → Option Nat
  | ['\'', c, '\''] => if c = '\\' then none else some c.toNat
  | _ => none

/-- A backslash-escape literal, bare or between quotes: the byte it stands for (30_encoding R82, log 13, log 14). -/
def escapeLiteral : Text → Option Byte
  | ['\\', c] => some (Config.escapeByte c)
  | ['\'', '\\', c, '\''] => some (Config.escapeByte c)
  | _ => none

/-- The bytes of a character in UTF-8 (30_encoding R91). -/
def utf8 (c : Char) : List Byte := (String.utf8EncodeChar c).map (fun b => b.toBitVec)

/-- The escape-decoded UTF-8 bytes up to the closing quote, which must be the last character (30_encoding R91). DESIGN CHOICE
(log 13): a backslash takes the character after it as an escape, a double quote included, so a double quote inside a string
needs a backslash. -/
def stringBytes : Text → Option (List Byte)
  | [] => none
  | ['"'] => some []
  | '"' :: _ :: _ => none
  | ['\\'] => none
  | '\\' :: c :: cs => (stringBytes cs).map (fun bs => Config.escapeByte c :: bs)
  | c :: cs => (stringBytes cs).map (fun bs => utf8 c ++ bs)

/-- A string literal: its decoded bytes (30_encoding R82, R91). -/
def stringLiteral : Text → Option (List Byte)
  | '"' :: cs => stringBytes cs
  | _ => none

/-- An operand that is no register name: its value as an immediate (30_encoding R85, R86). -/
def immediateOperand (tok : Text) : Option Int :=
  match numericLiteral tok with
  | some v => some v
  | none =>
    match charLiteral tok with
    | some c => some c
    | none => (escapeLiteral tok).map (fun b => (b.toNat : Int))

/-- The register names and their indices: r0 to r31, and pc for 32 (30_encoding R83). -/
def registerNames : List (Text × Nat) :=
  ("pc".toList, 32) :: (List.range 32).map (fun n => ('r' :: Nat.toDigits 10 n, n))

/-- The index of a register name (30_encoding R83). -/
def registerOperand (tok : Text) : Option Nat := registerNames.lookup tok

/-! ### Pass 1: labels (30_encoding R88) -/

/-- The bytes a statement emits: 4 for an instruction or a numeric literal, 1 for a character or escape literal, the
decoded length of a string literal (30_encoding R88). -/
def emittedSize : List Text → Nat
  | [tok] =>
    match stringLiteral tok with
    | some bs => bs.length
    | none => if (charLiteral tok).isSome ∨ (escapeLiteral tok).isSome then 1 else 4
  | _ => 4

/-- The bytes an item of the source stands for: none for a label. -/
def itemSize : Item → Nat
  | .label _ => 0
  | .statement toks => emittedSize toks

/-- The labels with their offsets, from a running offset: a label stands for the offset at which the next statement is
placed, or for the final offset if none follows (30_encoding R88). -/
def labelsFrom (cur : Nat) : List Item → List (Text × Nat)
  | [] => []
  | .label name :: items => (name, cur) :: labelsFrom cur items
  | .statement toks :: items => labelsFrom (cur + emittedSize toks) items

/-! ### Pass 2: substitution (30_encoding R89) -/

/-- A token that is a label's name becomes the decimal string of its offset. -/
def substitute (labels : List (Text × Nat)) (tok : Text) : Text :=
  match labels.lookup tok with
  | some offset => Nat.toDigits 10 offset
  | none => tok

/-! ### Pass 3: patterns and packing (30_encoding R85 to R87, R90, R91) -/

/-- The operand shapes of 30_encoding R85. -/
inductive Shape where
  /-- No operand. -/
  | bare
  /-- `ra imm`, the immediate contracted to 20 bits. -/
  | regImm20
  /-- `ra rb imm`, the immediate contracted to 20 bits. -/
  | regRegImm20
  /-- `ra rb rc`. -/
  | regRegReg
  /-- `ra rb imm`, the immediate contracted to 16 bits. -/
  | regRegImm16
deriving DecidableEq, Repr

/-- A row of the assembler's table: a mnemonic, its opcode and function, its operand shape (30_encoding R85, R90). -/
structure Pattern where
  mnemonic : Text
  opcode : Nat
  function : Nat
  shape : Shape
deriving DecidableEq, Repr

/-- The rows of one category: its mnemonics in the order of their functions, from function `fn` on. -/
def patternsFrom (op : Nat) (shape : Shape) (fn : Nat) : List String → List Pattern
  | [] => []
  | m :: ms => { mnemonic := m.toList, opcode := op, function := fn, shape := shape } :: patternsFrom op shape (fn + 1) ms

/-- The table of mnemonics (30_encoding R85, with the numbers of R68 and R69). -/
def patterns : List Pattern :=
  patternsFrom 0 .bare 0 ["halt", "nop"] ++ patternsFrom 0 .regImm20 2 ["sleep"] ++
  patternsFrom 1 .regRegImm20 0 ["in", "out", "outd", "outb", "outh", "outc"] ++ patternsFrom 1 .bare 6 ["cl"] ++
  patternsFrom 2 .regRegReg 0 ["add", "sub", "and", "or", "xor", "ls", "rs"] ++
  patternsFrom 3 .regRegImm16 0 ["addi", "subi", "andi", "ori", "xori", "lsi", "rsi"] ++
  patternsFrom 4 .regRegReg 0 ["mul", "div", "mod"] ++
  patternsFrom 5 .regRegImm16 0 ["j", "jal"] ++
  patternsFrom 6 .regRegImm16 0 ["beq", "bne", "blt", "bge"] ++
  patternsFrom 7 .regRegImm16 0 ["lw", "lb", "lh", "sw", "sb", "sh"]

/-- The word: opcode<<29 | function<<26 | reg_a<<21 | reg_b<<16 | reg_c<<11 | immediate, by OR with no masking
(30_encoding R87). -/
def pack (op fn ra rb rc imm : Nat) : Word :=
  BitVec.ofNat 32 (op <<< 29 ||| fn <<< 26 ||| ra <<< 21 ||| rb <<< 16 ||| rc <<< 11 ||| imm)

/-- The word of a pattern's operands; none if they do not fit its shape. Slots a shape does not use are 0
(30_encoding R85, R86). -/
def packOperands (p : Pattern) (operands : List Text) : Option Word :=
  match p.shape, operands with
  | .bare, [] => some (pack p.opcode p.function 0 0 0 0)
  | .regImm20, [a, k] =>
    match registerOperand a, immediateOperand k with
    | some ra, some v => some (pack p.opcode p.function ra 0 0 (contract v 20))
    | _, _ => none
  | .regRegImm20, [a, b, k] =>
    match registerOperand a, registerOperand b, immediateOperand k with
    | some ra, some rb, some v => some (pack p.opcode p.function ra rb 0 (contract v 20))
    | _, _, _ => none
  | .regRegReg, [a, b, c] =>
    match registerOperand a, registerOperand b, registerOperand c with
    | some ra, some rb, some rc => some (pack p.opcode p.function ra rb rc 0)
    | _, _, _ => none
  | .regRegImm16, [a, b, k] =>
    match registerOperand a, registerOperand b, immediateOperand k with
    | some ra, some rb, some v => some (pack p.opcode p.function ra rb 0 (contract v 16))
    | _, _, _ => none
  | _, _ => none

/-- An instruction statement: the first pattern of the table that fits the whole statement (30_encoding R90). -/
def instructionWord (toks : List Text) : Option Word :=
  match toks with
  | [] => none
  | m :: operands => patterns.findSome? (fun p => if p.mnemonic = m then packOperands p operands else none)

/-- A raw data statement: its bytes, with no instruction around them (30_encoding R91). -/
def rawData : List Text → Option (List Byte)
  | [tok] =>
    match stringLiteral tok with
    | some bs => some bs
    | none =>
      match charLiteral tok with
      | some c => if c ≤ 255 then some [BitVec.ofNat 8 c] else none
      | none =>
        match escapeLiteral tok with
        | some b => some [b]
        | none => (numericLiteral tok).map (fun v => bytesOfWord (BitVec.ofNat 32 (contract v 32)))
  | _ => none

/-- The bytes of a statement after substitution, or the error that names it (30_encoding R90 to R92). -/
def emit (toks : List Text) : Except AsmError (List Byte) :=
  match instructionWord toks with
  | some w => .ok (bytesOfWord w)
  | none =>
    match rawData toks with
    | some bs => .ok bs
    | none => .error (.assemblySyntaxError toks)

/-- The image of the items: assembly stops at the first error, which names the statement as written (30_encoding R92). -/
def emitAll (labels : List (Text × Nat)) : List Item → Except AsmError (List Byte)
  | [] => .ok []
  | .label _ :: items => emitAll labels items
  | .statement toks :: items =>
    match emit (toks.map (substitute labels)) with
    | .error _ => .error (.assemblySyntaxError toks)
    | .ok bs =>
      match emitAll labels items with
      | .error e => .error e
      | .ok rest => .ok (bs ++ rest)

/-- The binary image of a source text, or the error that stops the assembly (30_encoding R80 to R92). -/
def assemble (source : Text) : Except AsmError (List Byte) :=
  emitAll (labelsFrom 0 (parseSource source)) (parseSource source)

end Sys2Proof.Machine.Asm
end

