-- ==== Sys2Proof/Machine/Devices.lean ====
section
/-! DEFINITION. What the host's devices hold and show after a trace of events (10_state R35, 40_cycle R106): functions of
the trace, read by no instruction (log 15, log 16). -/

namespace Sys2Proof.Machine

/-- The output device's contents, oldest first: what was written since the last clear (10_state R35, 42_io R137). -/
def displayAfter (shown : List Event) : List Event → List Event
  | [] => shown
  | .clear :: es => displayAfter [] es
  | .delay _ :: es => displayAfter shown es
  | .out bs :: es => displayAfter (shown ++ [.out bs]) es
  | .outNum k v :: es => displayAfter (shown ++ [.outNum k v]) es
  | .outChar c :: es => displayAfter (shown ++ [.outChar c]) es

/-- The output device's contents in a state. -/
def State.display (s : State) : List Event := displayAfter [] s.events

/-- The seconds one event delays the CORE (41_ctl R122). -/
def delayOf : Event → Nat
  | .delay d => d
  | .out _ | .outNum _ _ | .outChar _ | .clear => 0

/-- The seconds of delay a run has asked of the timer (10_state R35, 70_reset R267). -/
def State.elapsed (s : State) : Nat := (s.events.map delayOf).sum

/-- The decimal text of signed(v), which `OUTD` has the host write (42_io R133, 92 D22). -/
def decimalText (v : Word) : List Char :=
  if v.toInt < 0 then '-' :: Nat.toDigits 10 v.toInt.natAbs else Nat.toDigits 10 v.toInt.natAbs

/-- The bytes of a text of ASCII characters. -/
def asciiBytes (text : List Char) : List Byte := text.map (fun c => BitVec.ofNat 8 c.toNat)

/-- What the host prints for an event: for a decimal number its text and nothing around it, by 42_io R133 and 92 D22 (log 15);
for every other event its own rendering, the open `outRender`. -/
def render : Event → List Byte
  | .outNum .dec v => asciiBytes (decimalText v)
  | .outNum .bin v => Config.outRender (.outNum .bin v)
  | .outNum .hex v => Config.outRender (.outNum .hex v)
  | .out bs => Config.outRender (.out bs)
  | .outChar c => Config.outRender (.outChar c)
  | .clear => Config.outRender .clear
  | .delay d => Config.outRender (.delay d)

/-- The text the host has printed: its rendering of each event, in order (92 D22, log 15). -/
def State.printed (s : State) : List Byte := s.events.flatMap render

end Sys2Proof.Machine
end

