-- ==== Sys2Proof/Machine/Loader.lean ====
section
/-! DEFINITION. Reset and load: the host creates the machine from a binary image (70_reset R260, R261). -/

namespace Sys2Proof.Machine

/-- The machine after reset with an image loaded at address 0, for a parameter set, a memory size, a draw of the
registers and an input stream; no machine if the image is longer than memory (70_reset R260, 92 D13 to D15). -/
def State.load (cfg : Config.Params) (memSize : Nat) (draw : RegFile) (input : List InputItem) (image : List Byte) :
    Option State :=
  if memSize < image.length then none
  else some
    { regs := draw
      pc := 0
      mem := Memory.writeBytes { size := memSize, cells := [] } 0 image
      run := .running
      input := input
      events := []
      cfg := cfg }

end Sys2Proof.Machine
end

