-- ==== Sys2Proof/Safety.lean ====
section
/-! DEFINITION. What a good state and a safe run are, and the terms the statements use for what a step changes. -/

namespace Sys2Proof.Machine

/-- A state some CORE can be in: memory's list is canonical and inside memory, and `memSize` is in [4, 2^30] (92 D14). -/
def State.wf (s : State) : Bool :=
  s.mem.wf && decide (Config.minMemSize ≤ s.mem.size) && decide (s.mem.size ≤ Config.maxMemSize)

/-- The run has not ended in a fault (60_exceptions R230). -/
def State.faultless (s : State) : Bool :=
  match s.run with
  | .faulted _ => false
  | .running | .halted => true

/-- A step is safe in a state: the machine goes on or halts; it neither faults nor blocks. -/
def safeStep (s : State) : Prop := ∃ t, step s = .next t ∧ t.faultless = true

/-- `k` steps are safe from a state, each taken from the state before it. -/
def safeFor : Nat → State → Prop
  | 0, _ => True
  | k + 1, s => ∃ t, step s = .next t ∧ t.faultless = true ∧ (t.run = .running → safeFor k t)

/-! ### What a step keeps: the frames of the statements -/

/-- Every general register reads as before. -/
def SameRegs (s t : State) : Prop := ∀ r, t.reg r = s.reg r

/-- Register `ra` reads `v`, or 0 if it is x[0] (10_state R21); every other register reads as before. -/
def OnlyReg (ra : Reg) (v : Word) (s t : State) : Prop :=
  ∀ r, t.reg r = if r = 0 then 0 else if r = ra then v else s.reg r

/-- Register `ra` holds to32(n) = n mod 2^32, or 0 if it is x[0]; every other register reads as before (00_scope R8). -/
def OnlyRegInt (ra : Reg) (n : Int) (s t : State) : Prop :=
  ∀ r, ((t.reg r).toNat : Int) =
    if r = 0 then (0 : Int) else if r = ra then n % (2 ^ 32 : Int) else ((s.reg r).toNat : Int)

/-- Memory has the same size and every byte reads as before. -/
def SameMem (s t : State) : Prop :=
  t.mem.size = s.mem.size ∧ ∀ a, t.mem.readByte a = s.mem.readByte a

/-- Memory has the same size; the bytes at a, a+1, ... read as `bs`, and every other byte as before. -/
def OnlyBytes (a : Nat) (bs : List Byte) (s t : State) : Prop :=
  t.mem.size = s.mem.size ∧ (∀ k, (h : k < bs.length) → t.mem.readByte (a + k) = bs[k]) ∧
    ∀ b, b < a ∨ a + bs.length ≤ b → t.mem.readByte b = s.mem.readByte b

/-- The devices' streams are as before: nothing read, nothing called. -/
def SameDevices (s t : State) : Prop := t.input = s.input ∧ t.events = s.events

/-- Exactly the event `e` was appended to the trace, and no input was consumed. -/
def OnlyEvent (e : Event) (s t : State) : Prop := t.input = s.input ∧ t.events = s.events ++ [e]

/-- The run state and the parameters are as before. -/
def SameControl (s t : State) : Prop := t.run = s.run ∧ t.cfg = s.cfg

/-- The pc advanced by the width of an instruction, modulo 2^32 (10_state R27). -/
def Advanced (s t : State) : Prop := t.pc.toNat = (s.pc.toNat + 4) % 2 ^ 32

/-- What an instruction that writes no memory and calls no device leaves as it was, beside the registers; the pc advanced. -/
def AluFrame (s t : State) : Prop := Advanced s t ∧ SameMem s t ∧ SameDevices s t ∧ SameControl s t

/-- What an instruction that only calls the output device or the timer with event `e` does: nothing but that and the pc. -/
def OnlyCalls (e : Event) (s t : State) : Prop :=
  SameRegs s t ∧ Advanced s t ∧ SameMem s t ∧ OnlyEvent e s t ∧ SameControl s t

/-- The whole step of an instruction is to take the fault `f`: the run state changes and nothing else (60_exceptions R232). -/
def Raises (i : Instr) (s : State) (f : Fault) : Prop := exec i s = .next { s with run := .faulted f }

/-- A branch completes: the pc becomes to32(imm16) when `taken` holds and advances otherwise; nothing else changes
(46_branch R200). -/
def BranchesIf (taken : Prop) (i : Instr) (imm : BitVec 16) (s : State) : Prop :=
  ∃ t, exec i s = .next t ∧ SameRegs s t ∧ SameMem s t ∧ SameDevices s t ∧ SameControl s t ∧
    (taken → (t.pc.toNat : Int) = extend imm.toNat 16 % 2 ^ 32) ∧ (¬ taken → Advanced s t)

/-- The state with an older trace in front of its own: what a run would look like if more had been output before. -/
def State.withEarlierEvents (s : State) (es : List Event) : State := { s with events := es ++ s.events }

/-- The register an instruction writes, by 10_state R23; `none` for one that writes none. -/
def destination : Instr → Option Reg
  | .halt | .nop | .sleep _ _ => none
  | .in_ _ _ _ | .out _ _ _ | .outd _ _ _ | .outb _ _ _ | .outh _ _ _ | .outc _ _ _ | .cl => none
  | .add ra _ _ | .sub ra _ _ | .and ra _ _ | .or ra _ _ | .xor ra _ _ | .ls ra _ _ | .rs ra _ _ => some ra
  | .addi ra _ _ | .subi ra _ _ | .andi ra _ _ | .ori ra _ _ | .xori ra _ _ | .lsi ra _ _ | .rsi ra _ _ => some ra
  | .mul ra _ _ | .div ra _ _ | .mod ra _ _ => some ra
  | .j ra _ _ | .jal ra _ _ => some ra
  | .beq _ _ _ | .bne _ _ _ | .blt _ _ _ | .bge _ _ _ => none
  | .lw ra _ _ | .lb ra _ _ | .lh ra _ _ => some ra
  | .sw _ _ _ | .sb _ _ _ | .sh _ _ _ => none

/-- The instructions that may write memory, by 20_memory R41. -/
def mayWriteMemory : Instr → Bool
  | .sw _ _ _ | .sb _ _ _ | .sh _ _ _ | .in_ _ _ _ => true
  | .halt | .nop | .sleep _ _ => false
  | .out _ _ _ | .outd _ _ _ | .outb _ _ _ | .outh _ _ _ | .outc _ _ _ | .cl => false
  | .add _ _ _ | .sub _ _ _ | .and _ _ _ | .or _ _ _ | .xor _ _ _ | .ls _ _ _ | .rs _ _ _ => false
  | .addi _ _ _ | .subi _ _ _ | .andi _ _ _ | .ori _ _ _ | .xori _ _ _ | .lsi _ _ _ | .rsi _ _ _ => false
  | .mul _ _ _ | .div _ _ _ | .mod _ _ _ => false
  | .j _ _ _ | .jal _ _ _ | .beq _ _ _ | .bne _ _ _ | .blt _ _ _ | .bge _ _ _ => false
  | .lw _ _ _ | .lb _ _ _ | .lh _ _ _ => false

/-- The instructions that may set the pc explicitly, by 10_state R27: `JUMP` and `BRANCH`. -/
def maySetPc : Instr → Bool
  | .j _ _ _ | .jal _ _ _ | .beq _ _ _ | .bne _ _ _ | .blt _ _ _ | .bge _ _ _ => true
  | .halt | .nop | .sleep _ _ => false
  | .in_ _ _ _ | .out _ _ _ | .outd _ _ _ | .outb _ _ _ | .outh _ _ _ | .outc _ _ _ | .cl => false
  | .add _ _ _ | .sub _ _ _ | .and _ _ _ | .or _ _ _ | .xor _ _ _ | .ls _ _ _ | .rs _ _ _ => false
  | .addi _ _ _ | .subi _ _ _ | .andi _ _ _ | .ori _ _ _ | .xori _ _ _ | .lsi _ _ _ | .rsi _ _ _ => false
  | .mul _ _ _ | .div _ _ _ | .mod _ _ _ => false
  | .lw _ _ _ | .lb _ _ _ | .lh _ _ _ | .sw _ _ _ | .sb _ _ _ | .sh _ _ _ => false

/-- The pairs of opcode and function that are no instruction (30_encoding R70). -/
def illegalPair (op fn : Nat) : Prop :=
  (op = 0 ∧ 3 ≤ fn) ∨ (op = 1 ∧ fn = 7) ∨ (op = 2 ∧ fn = 7) ∨ (op = 3 ∧ fn = 7) ∨
    (op = 4 ∧ 3 ≤ fn) ∨ (op = 5 ∧ 2 ≤ fn) ∨ (op = 6 ∧ 4 ≤ fn) ∨ (op = 7 ∧ 6 ≤ fn)

/-- The big-endian word of the four bytes at the pc (20_memory R43). -/
def wordAtPc (s : State) : Nat :=
  (s.mem.readByte s.pc.toNat).toNat * 2 ^ 24 + (s.mem.readByte (s.pc.toNat + 1)).toNat * 2 ^ 16 +
    (s.mem.readByte (s.pc.toNat + 2)).toNat * 2 ^ 8 + (s.mem.readByte (s.pc.toNat + 3)).toNat

/-- An instruction whose word has this opcode and this function (30_encoding R67). -/
def HasCode (i : Instr) (op fn : Nat) : Prop := (opcode (encode i)).toNat = op ∧ (function (encode i)).toNat = fn

/-- The events that put something on the output device (42_io R132 to R136). -/
def isShown : Event → Bool
  | .out _ | .outNum _ _ | .outChar _ => true
  | .clear | .delay _ => false

/-! ### The statements of the assembler: each instruction's mnemonic, by the shape of its operands (30_encoding R85) -/

/-- A label's name that is no string, character or escape literal: replacing it by a number keeps a statement's size (log 13). -/
def isPlainName (name : Asm.Text) : Bool :=
  (Asm.stringLiteral name).isNone && (Asm.charLiteral name).isNone && (Asm.escapeLiteral name).isNone

/-- The assembler's name of a register (30_encoding R83). -/
def regName (r : Reg) : List Char := 'r' :: Nat.toDigits 10 r.val

/-- The instructions without an operand. -/
def bareForms : List (String × Instr) := [("halt", .halt), ("nop", .nop), ("cl", .cl)]

/-- The instructions `ra rb rc`. -/
def registerForms : List (String × (Reg → Reg → Reg → Instr)) :=
  [("add", .add), ("sub", .sub), ("and", .and), ("or", .or), ("xor", .xor), ("ls", .ls), ("rs", .rs),
    ("mul", .mul), ("div", .div), ("mod", .mod)]

/-- The instructions `ra rb imm` with a 16-bit immediate. -/
def immediateForms : List (String × (Reg → Reg → BitVec 16 → Instr)) :=
  [("addi", .addi), ("subi", .subi), ("andi", .andi), ("ori", .ori), ("xori", .xori), ("lsi", .lsi), ("rsi", .rsi),
    ("j", .j), ("jal", .jal), ("beq", .beq), ("bne", .bne), ("blt", .blt), ("bge", .bge),
    ("lw", .lw), ("lb", .lb), ("lh", .lh), ("sw", .sw), ("sb", .sb), ("sh", .sh)]

/-- The instructions `ra rb imm` of `IO`. -/
def ioForms : List (String × (Reg → Reg → BitVec 21 → Instr)) :=
  [("in", .in_), ("out", .out), ("outd", .outd), ("outb", .outb), ("outh", .outh), ("outc", .outc)]

end Sys2Proof.Machine
end

