-- ==== Sys2Proof/Certificates/Slice0/Obligations.lean ====
section
/-! DEFINITION. The statements for the provers. Each says in its own terms what a rule of spec/ says; the terms for what a
step leaves unchanged are those of Safety.lean. -/

open Sys2Proof Sys2Proof.Machine

/-! ### Reset and load -/

/-- 70_reset R261, 10_state R36: after reset the pc is 0, the CORE is `Running`, every byte of memory is 0, x[0] is 0. The
spec gives x[1] to x[31] no value and nothing is said of them; memory is all zero because no image is loaded (log 10). -/
def Obligations.ResetStartsRunningAtZero : Prop :=
  State.reset.pc = 0 ∧ State.reset.run = .running ∧ State.reset.reg 0 = 0 ∧
    ∀ a, State.reset.mem.readByte a = 0

/-- The invariant of `StepKeepsTheStateWellFormed` holds at reset. -/
def Obligations.ResetIsWellFormed : Prop := State.reset.wf = true

/-- 70_reset R260: an image longer than memory is refused; any other stands at address 0 with zeros after it, the registers
hold the draw, the pc is 0 and the CORE is `Running`. -/
def Obligations.LoadPlacesTheImageAndZeroFills : Prop :=
  ∀ (cfg : Config.Params) (memSize : Nat) (draw : RegFile) (input : List InputItem) (image : List Byte),
    (memSize < image.length → State.load cfg memSize draw input image = none) ∧
    (image.length ≤ memSize → ∃ s, State.load cfg memSize draw input image = some s ∧
      s.mem.size = memSize ∧ s.mem.wf = true ∧
      (∀ k, (h : k < image.length) → s.mem.readByte k = image[k]) ∧
      (∀ a, image.length ≤ a → s.mem.readByte a = 0) ∧
      (∀ k, (h : k < 31) → s.reg ⟨k + 1, by omega⟩ = draw[k]) ∧ s.reg 0 = 0 ∧
      s.pc = 0 ∧ s.run = .running ∧ s.input = input ∧ s.events = [] ∧ s.cfg = cfg)

/-! ### The step -/

/-- 40_cycle R100 to R102: when the four bytes at the pc are inside memory and their big-endian word decodes to an
instruction, the step of a running CORE is that instruction's. -/
def Obligations.StepRunsTheDecodedInstruction : Prop :=
  ∀ (s : State) (w : Word) (i : Instr), s.run = .running → s.pc.toNat + 4 ≤ s.mem.size →
    w.toNat = wordAtPc s → decodeWord w = .ok i → step s = exec i s

/-- 40_cycle R101: fetch reads the big-endian word of the four bytes at unsigned(pc), at any alignment; where they are not
all inside memory the step raises MemoryFault(cur, 4). For a memory of at most 2^30 bytes the check gives the same verdict
with the pc read as signed. -/
def Obligations.FetchReadsTheWordAtThePcOrFaults : Prop :=
  ∀ s : State,
    (s.pc.toNat + 4 ≤ s.mem.size → ∃ w, fetch s = .ok w ∧ w.toNat = wordAtPc s) ∧
    (s.mem.size < s.pc.toNat + 4 → s.run = .running →
      step s = .next { s with run := .faulted (.memoryFault s.pc s.pc.toNat 4) }) ∧
    (s.mem.size ≤ 2 ^ 30 →
      (s.pc.toNat + 4 ≤ s.mem.size ↔ 0 ≤ s.pc.toInt ∧ s.pc.toInt + 4 ≤ s.mem.size))

/-- 30_encoding R70: a word is an instruction unless its opcode and function are one of the 25 illegal pairs, and a step
that fetches a word of such a pair raises `IllegalInstruction(word)`, with no other effect. -/
def Obligations.IllegalPairsRaiseIllegalInstruction : Prop :=
  (∀ w : Word, (∃ i, decodeWord w = .ok i) ↔ ¬ illegalPair (opcode w).toNat (function w).toNat) ∧
  ∀ (s : State) (w : Word), s.run = .running → s.pc.toNat + 4 ≤ s.mem.size → w.toNat = wordAtPc s →
    illegalPair (opcode w).toNat (function w).toNat →
    step s = .next { s with run := .faulted (.illegalInstruction s.pc w) }

/-- 10_state R31: a step is taken only in `Running`; it leads to `Halted` exactly when the fetched instruction is `HALT`,
and to `Faulted` only by a fault, which changes the run state alone. -/
def Obligations.RunStateTransitions : Prop :=
  ∀ s : State,
    (s.run = .halted → step s = .refused .halted) ∧
    (∀ f, s.run = .faulted f → step s = .fault f) ∧
    ∀ t, step s = .next t → s.run = .running ∧
      (t.run = .halted ↔ ∃ w, fetch s = .ok w ∧ decodeWord w = .ok .halt) ∧
      ∀ f, t.run = .faulted f → t = { s with run := .faulted f }

/-- 60_exceptions R232: a step that ends in `Faulted` leaves the registers, the memory and the pc as they were, has made no
device call, and has recorded the address of the faulting instruction. -/
def Obligations.FaultsArePrecise : Prop :=
  ∀ (s t : State) (f : Fault), step s = .next t → t.run = .faulted f →
    SameRegs s t ∧ t.pc = s.pc ∧ t.mem = s.mem ∧ SameDevices s t ∧ t.cfg = s.cfg ∧
    (f = .inputFormatError s.pc ∨ f = .divideByZero s.pc ∨ f = .ioArgumentFault s.pc ∨
      (∃ w, f = .illegalInstruction s.pc w) ∨ ∃ a n, f = .memoryFault s.pc a n)

/-- 40_cycle R100, R107: a running CORE always takes a step, unless it is blocked in an `IN` that asks for more bytes than the
input device will deliver. That blocking is the refusal `blockedOnInput` is log 7, and that what the device will deliver is a
list whose items are counted is the model's choice, log 8. -/
def Obligations.OnlyInCanBlock : Prop :=
  ∀ s : State, s.run = .running →
    (∃ t, step s = .next t) ∨
    (step s = .refused .blockedOnInput ∧ ∃ w ra rb imm, fetch s = .ok w ∧ decodeWord w = .ok (.in_ ra rb imm) ∧
      (s.input.length : Int) < inCount (s.reg ra) (s.reg rb))

/-- Every step keeps the state well formed: memory's list stays canonical and inside memory, and `memSize` legal. -/
def Obligations.StepKeepsTheStateWellFormed : Prop :=
  ∀ s t : State, s.wf = true → step s = .next t → t.wf = true

/-- 00_scope R6, 20_memory R40: no step changes the parameters or the size of memory. -/
def Obligations.StepKeepsParametersAndMemorySize : Prop :=
  ∀ s t : State, step s = .next t → t.cfg = s.cfg ∧ t.mem.size = s.mem.size

/-- 40_cycle R106: device calls are only appended to the trace, one at most in a step, and input is only consumed from the
front of the stream. -/
def Obligations.StepAppendsEventsAndConsumesInput : Prop :=
  ∀ s t : State, step s = .next t →
    (t.events = s.events ∨ ∃ e, t.events = s.events ++ [e]) ∧ ∃ used, s.input = used ++ t.input

/-- 10_state R35, 70_reset R267: what was output before, delays included, has no influence on the CORE. Two states that
differ only in the older part of the trace take the same step, and still differ only there. -/
def Obligations.EarlierEventsDoNotInfluenceAStep : Prop :=
  ∀ (s : State) (es : List Event),
    (∀ t, step s = .next t → step (s.withEarlierEvents es) = .next (t.withEarlierEvents es)) ∧
    (∀ f, step s = .fault f → step (s.withEarlierEvents es) = .fault f) ∧
    ∀ r, step s = .refused r → step (s.withEarlierEvents es) = .refused r

/-- 10_state R23, R21: an instruction changes no general register but the one the table of R23 gives it, and a write to x[0]
is discarded whatever instruction makes it: x[0] reads 0 before and after, and the other registers are unchanged. -/
def Obligations.OnlyTheDestinationRegisterChanges : Prop :=
  ∀ (i : Instr) (s t : State), exec i s = .next t →
    (∀ r, destination i ≠ some r → t.reg r = s.reg r) ∧ s.reg 0 = 0 ∧ t.reg 0 = 0 ∧
    (destination i = some 0 → SameRegs s t)

/-- 20_memory R41: no instruction but the stores and `IN` changes any byte of memory. -/
def Obligations.OnlyStoresAndInWriteMemory : Prop :=
  ∀ (i : Instr) (s t : State), exec i s = .next t → mayWriteMemory i = false → t.mem = s.mem

/-- 10_state R27: every instruction that completes and is no `JUMP` and no `BRANCH` advances the pc by 4, `HALT` included. -/
def Obligations.PcAdvancesUnlessJumpOrBranch : Prop :=
  ∀ (i : Instr) (s t : State), s.run = .running → exec i s = .next t → (∀ f, t.run ≠ .faulted f) →
    maySetPc i = false → Advanced s t

/-! ### Encoding -/

/-- 30_encoding R74: decoding the word of a well-formed instruction gives the instruction back, with every operand. -/
def Obligations.DecodeOfEncodeIsTheInstruction : Prop :=
  ∀ i : Instr, i.wellFormed = true → decodeWord (encode i) = .ok i

/-- 30_encoding R71: what a word decodes to is well formed, its encoding is the word's read bits, and a word that differs
only in bits the instruction does not read decodes to the same instruction. -/
def Obligations.UnreadBitsAreIgnored : Prop :=
  ∀ (w : Word) (i : Instr), decodeWord w = .ok i →
    i.wellFormed = true ∧ encode i = w &&& readMask i ∧
    ∀ w', w' &&& readMask i = w &&& readMask i → decodeWord w' = .ok i

/-- Words written out from 30_encoding R61, R68, R69 (bits 31-29, 28-26, 25-21, ...) decode to what they stand for. -/
def Obligations.WrittenOutWordsDecode : Prop :=
  decodeWord 0b000_010_00001_000000000000000000011#32 = .ok (.sleep 1 3) ∧
  decodeWord 0b001_001_00001_00010_0000000000000000#32 = .ok (.out 1 2 0x020000) ∧
  decodeWord 0b010_000_00011_00001_00010_00000000000#32 = .ok (.add 3 1 2) ∧
  decodeWord 0b011_000_00001_00000_0000000000000011#32 = .ok (.addi 1 0 3) ∧
  decodeWord 0b100_010_00011_00001_00010_00000000000#32 = .ok (.mod 3 1 2) ∧
  decodeWord 0b101_001_11111_00000_0000000001100100#32 = .ok (.jal 31 0 100) ∧
  decodeWord 0b110_000_00001_00010_0000000000101000#32 = .ok (.beq 1 2 40) ∧
  decodeWord 0b111_011_00000_00001_0000000011001000#32 = .ok (.sw 0 1 200)

/-- 30_encoding R64, R65: the immediates are the sign extensions of the word's low 16, 21 and, with the alternative
`ctlIoImmWidth`, 20 bits. -/
def Obligations.ImmediatesAreSignExtended : Prop :=
  ∀ w : Word, imm16 (fieldImm16 w) = extend (w.toNat % 2 ^ 16) 16 ∧
    imm21 .w21 (fieldImm21 w) = extend (w.toNat % 2 ^ 21) 21 ∧
    imm21 .w20 (fieldImm21 w) = extend (w.toNat % 2 ^ 20) 20

/-- 30_encoding R66: with `ctlIoImmWidth` 21, the `IO` immediate is rb * 65536 + word[15:0], less 2^21 when rb is 16 or more;
with rb = 0 it is word[15:0]. -/
def Obligations.IoImmediateContainsRb : Prop :=
  ∀ w : Word,
    imm21 .w21 (fieldImm21 w) =
      ((fieldB w).val : Int) * 65536 + (w.toNat % 65536 : Nat) - (if (fieldB w).val < 16 then 0 else 2 ^ 21) ∧
    (fieldB w = 0 → imm21 .w21 (fieldImm21 w) = (w.toNat % 65536 : Nat))

/-- 00_scope R10: contraction is the remainder modulo 2^w, and extending the contraction of a value that `w` bits can hold
gives the value back. -/
def Obligations.ExtendOfContractIsTheValue : Prop :=
  ∀ (w : Nat) (v : Int), ((contract v w : Nat) : Int) = v % 2 ^ w ∧
    (0 < w → -(2 ^ (w - 1)) ≤ v → v < 2 ^ (w - 1) → extend (contract v w) w = v)

/-! ### The assembler -/

/-- 30_encoding R87, R85: where the fields of a shape do not overlap, the assembler's packing formula gives the word the
encoder gives, one shape a clause; a non-negative `IO` immediate below 65536 with rb = r0 is such a case. -/
def Obligations.PackingAgreesWithTheEncoder : Prop :=
  ∀ (op fn : BitVec 3) (ra rb rc : Reg) (v : Int),
    Asm.pack op.toNat fn.toNat ra.val rb.val rc.val 0 = encodeR op fn ra rb rc ∧
    Asm.pack op.toNat fn.toNat ra.val rb.val 0 (contract v 16) = encodeI op fn ra rb (BitVec.ofInt 16 v) ∧
    (0 ≤ v → v < 65536 →
      Asm.pack op.toNat fn.toNat ra.val 0 0 (contract v 20) = encodeC op fn ra (BitVec.ofInt 21 v))

/-- 30_encoding R84: the index 32 of the name `pc`, packed without masking, sets the low bit of the field to the left of the
slot it stands in and leaves the slot 0. -/
def Obligations.PcAsAnOperandCorruptsTheWord : Prop :=
  ∀ op fn ra rb rc imm : Nat,
    Asm.pack op fn 32 rb rc imm = Asm.pack op (fn ||| 1) 0 rb rc imm ∧
    Asm.pack op fn ra 32 rc imm = Asm.pack op fn (ra ||| 1) 0 rc imm ∧
    Asm.pack op fn ra rb 32 imm = Asm.pack op fn ra (rb ||| 1) 0 imm

/-- 30_encoding R88, R89: a label's name is looked up as the sum of the sizes of the statements before its first declaration, so as
the final offset when no statement follows. In the assembled image that is the number of bytes emitted before the label, with
the labels substituted as pass 2 does it, provided no label is named like a string, character or escape literal. That of two
labels of one name the first counts, and that sizes are taken before substitution, is log 13. -/
def Obligations.LabelsResolveToTheBytesBefore : Prop :=
  ∀ (before after : List Asm.Item) (name : Asm.Text), .label name ∉ before →
    (Asm.labelsFrom 0 (before ++ .label name :: after)).lookup name = some (before.map Asm.itemSize).sum ∧
    ∀ (labels : List (Asm.Text × Nat)) (image : List Byte), labels = Asm.labelsFrom 0 (before ++ .label name :: after) →
      (∀ l ∈ labels, isPlainName l.1 = true) →
      Asm.emitAll labels (before ++ .label name :: after) = .ok image →
      ∃ front back, image = front ++ back ∧ Asm.emitAll labels before = .ok front ∧
        Asm.emitAll labels after = .ok back ∧ labels.lookup name = some front.length ∧
        Asm.substitute labels name = Nat.toDigits 10 front.length

/-- 30_encoding R85, R90: every instruction has a statement, its mnemonic and its operands, that the assembler turns into the
bytes of its word: by shape, and for `CTL` and `IO` where the contracted immediate is the one meant, with rb = r0. -/
def Obligations.StatementsAssembleToTheirEncoding : Prop :=
  (∀ p ∈ bareForms, Asm.emit [p.1.toList] = .ok (bytesOfWord (encode p.2))) ∧
  (∀ p ∈ registerForms, ∀ ra rb rc : Reg,
    Asm.emit [p.1.toList, regName ra, regName rb, regName rc] = .ok (bytesOfWord (encode (p.2 ra rb rc)))) ∧
  (∀ p ∈ immediateForms, ∀ (ra rb : Reg) (tok : Asm.Text) (v : Int), Asm.immediateOperand tok = some v →
    Asm.emit [p.1.toList, regName ra, regName rb, tok] = .ok (bytesOfWord (encode (p.2 ra rb (BitVec.ofInt 16 v))))) ∧
  (∀ p ∈ ioForms, ∀ (ra : Reg) (tok : Asm.Text) (v : Int), Asm.immediateOperand tok = some v → 0 ≤ v → v < 65536 →
    Asm.emit [p.1.toList, regName ra, regName 0, tok] = .ok (bytesOfWord (encode (p.2 ra 0 (BitVec.ofInt 21 v))))) ∧
  ∀ (ra : Reg) (tok : Asm.Text) (v : Int), Asm.immediateOperand tok = some v → 0 ≤ v → v < 2 ^ 20 →
    Asm.emit ["sleep".toList, regName ra, tok] = .ok (bytesOfWord (encode (.sleep ra (BitVec.ofInt 21 v))))

/-! ### CTL -/

/-- 41_ctl R120: `HALT` enters `Halted`, the pc advances, nothing else changes, and no further step is taken. -/
def Obligations.HaltEntersHalted : Prop :=
  ∀ s : State, HasCode .halt 0 0 ∧ ∃ t, exec .halt s = .next t ∧ t.run = .halted ∧
    Advanced s t ∧ SameRegs s t ∧ SameMem s t ∧ SameDevices s t ∧ t.cfg = s.cfg ∧ ∀ u, step t ≠ .next u

/-- 41_ctl R121: `NOP` changes nothing but the pc. -/
def Obligations.NopOnlyAdvances : Prop :=
  ∀ s : State, HasCode .nop 0 1 ∧ ∃ t, exec .nop s = .next t ∧ SameRegs s t ∧ AluFrame s t

/-- 41_ctl R122: with d = signed(to32(x[ra] + imm21)), `SLEEP` faults when d < 0 and else records the delay of d seconds,
changing nothing else but the pc. -/
def Obligations.SleepDelaysOrFaults : Prop :=
  ∀ (s : State) (ra : Reg) (imm : BitVec 21) (d : Int),
    d = (BitVec.ofInt 32 ((s.reg ra).toInt + imm21 s.cfg.ctlIoImmWidth imm)).toInt →
    HasCode (.sleep ra imm) 0 2 ∧
    (d < 0 → Raises (.sleep ra imm) s (.ioArgumentFault s.pc)) ∧
    (0 ≤ d → ∃ t, exec (.sleep ra imm) s = .next t ∧ OnlyCalls (.delay d.toNat) s t)

/-! ### IO -/

/-- 42_io R131, over the model's input list (log 8): an `IN` of n > 0 bytes whose range is inside memory, with n bytes next in the input, writes them at x + z and
consumes them; n is 1 if y is 0 and else signed(y) - signed(x). Nothing else changes but the pc. -/
def Obligations.InWritesTheInputBytes : Prop :=
  ∀ (s : State) (ra rb : Reg) (imm : BitVec 21) (bs : List Byte) (rest : List InputItem),
    s.mem.wf = true → bs ≠ [] →
    (bs.length : Int) = (if s.reg rb = 0 then 1 else (s.reg rb).toInt - (s.reg ra).toInt) →
    0 ≤ s.ioAddr ra imm → s.ioAddr ra imm + bs.length ≤ s.mem.size → s.input = bs.map .byte ++ rest →
    HasCode (.in_ ra rb imm) 1 0 ∧
    ∃ t, exec (.in_ ra rb imm) s = .next t ∧ OnlyBytes (s.ioAddr ra imm).toNat bs s t ∧ t.input = rest ∧
      t.events = s.events ∧ SameRegs s t ∧ Advanced s t ∧ SameControl s t

/-- 42_io R131, R138: the other cases of `IN`, in the order of its checks: n < 0 faults; n = 0 does nothing; a range outside
memory faults and consumes no input; an input error met before n bytes faults; input that ends first blocks. That an error is
an item of a list known in advance and counts only among the items asked for is the model's choice, log 8; that blocking is
the refusal `blockedOnInput` is log 7. -/
def Obligations.InChecksBeforeItReads : Prop :=
  ∀ (s : State) (ra rb : Reg) (imm : BitVec 21) (n : Int),
    n = (if s.reg rb = 0 then 1 else (s.reg rb).toInt - (s.reg ra).toInt) →
    (n < 0 → Raises (.in_ ra rb imm) s (.ioArgumentFault s.pc)) ∧
    (n = 0 → ∃ t, exec (.in_ ra rb imm) s = .next t ∧ SameRegs s t ∧ AluFrame s t) ∧
    (0 < n → ¬ (0 ≤ s.ioAddr ra imm ∧ s.ioAddr ra imm + n ≤ s.mem.size) →
      Raises (.in_ ra rb imm) s (.memoryFault s.pc (s.ioAddr ra imm) n.toNat)) ∧
    (0 < n → 0 ≤ s.ioAddr ra imm → s.ioAddr ra imm + n ≤ s.mem.size →
      (∀ (bs : List Byte) (rest : List InputItem), (bs.length : Int) < n →
        s.input = bs.map .byte ++ .inputError :: rest →
        Raises (.in_ ra rb imm) s (.inputFormatError s.pc)) ∧
      (∀ bs : List Byte, (bs.length : Int) < n → s.input = bs.map .byte →
        exec (.in_ ra rb imm) s = .refused .blockedOnInput))

/-- 42_io R132: with s = signed(x[ra]) + imm21 and e = signed(x[rb]), `OUT` writes the bytes M[s .. e-1] when s < e, faults
when that range leaves memory, and does nothing when s >= e. -/
def Obligations.OutWritesTheByteRange : Prop :=
  ∀ (s : State) (ra rb : Reg) (imm : BitVec 21),
    HasCode (.out ra rb imm) 1 1 ∧
    ((s.reg rb).toInt ≤ s.ioAddr ra imm → ∃ t, exec (.out ra rb imm) s = .next t ∧ SameRegs s t ∧ AluFrame s t) ∧
    (s.ioAddr ra imm < (s.reg rb).toInt → ¬ (0 ≤ s.ioAddr ra imm ∧ (s.reg rb).toInt ≤ s.mem.size) →
      Raises (.out ra rb imm) s (.memoryFault s.pc (s.ioAddr ra imm) ((s.reg rb).toInt - s.ioAddr ra imm).toNat)) ∧
    (0 ≤ s.ioAddr ra imm → s.ioAddr ra imm < (s.reg rb).toInt → (s.reg rb).toInt ≤ s.mem.size →
      ∃ t bs, exec (.out ra rb imm) s = .next t ∧ OnlyCalls (.out bs) s t ∧
        (bs.length : Int) = (s.reg rb).toInt - s.ioAddr ra imm ∧
        ∀ k, (h : k < bs.length) → bs[k] = s.mem.readByte ((s.ioAddr ra imm).toNat + k))

/-- 42_io R133 to R135: `OUTD`, `OUTB` and `OUTH` pass to32(x[ra] + imm21) to the output device as a decimal, binary or
hexadecimal number; x[rb] is not read. -/
def Obligations.NumberOutputsPassTheSum : Prop :=
  ∀ (s : State) (ra rb : Reg) (imm : BitVec 21),
    ∃ v : Word, (v.toNat : Int) = ((s.reg ra).toNat + imm21 s.cfg.ctlIoImmWidth imm) % 2 ^ 32 ∧
      HasCode (.outd ra rb imm) 1 2 ∧ HasCode (.outb ra rb imm) 1 3 ∧ HasCode (.outh ra rb imm) 1 4 ∧
      (∃ t, exec (.outd ra rb imm) s = .next t ∧ OnlyCalls (.outNum .dec v) s t) ∧
      (∃ t, exec (.outb ra rb imm) s = .next t ∧ OnlyCalls (.outNum .bin v) s t) ∧
      ∃ t, exec (.outh ra rb imm) s = .next t ∧ OnlyCalls (.outNum .hex v) s t

/-- 42_io R136: with c = signed(to32(x[ra] + imm21)), `OUTC` writes the character of code point c when 0 <= c <= 0x10FFFF and
faults otherwise. -/
def Obligations.OutcWritesTheCodePointOrFaults : Prop :=
  ∀ (s : State) (ra rb : Reg) (imm : BitVec 21) (c : Int),
    c = (BitVec.ofInt 32 ((s.reg ra).toInt + imm21 s.cfg.ctlIoImmWidth imm)).toInt →
    HasCode (.outc ra rb imm) 1 5 ∧
    (c < 0 ∨ 0x10FFFF < c → Raises (.outc ra rb imm) s (.ioArgumentFault s.pc)) ∧
    (0 ≤ c → c ≤ 0x10FFFF → ∃ t, exec (.outc ra rb imm) s = .next t ∧ OnlyCalls (.outChar c.toNat) s t)

/-- 42_io R137: `CL` clears the output device, and does nothing else. -/
def Obligations.ClClearsTheOutputDevice : Prop :=
  ∀ s : State, HasCode .cl 1 6 ∧ ∃ t, exec .cl s = .next t ∧ OnlyCalls .clear s t

/-- 10_state R35, the model's reading of it (log 16): the output device shows what was written since the last clear, delays
apart, whatever was written before; with no clear yet, all that was written. -/
def Obligations.DisplayIsWhatWasWrittenSinceTheLastClear : Prop :=
  ∀ (s : State) (later : List Event), .clear ∉ later →
    (s.events = later → s.display = later.filter isShown) ∧
    ∀ earlier : List Event, s.events = earlier ++ .clear :: later →
      s.display = later.filter isShown

/-! ### ALUR and ALUI -/

/-- 43_alu R150, R151: `ADD` and `SUB` write the sum and the difference modulo 2^32. -/
def Obligations.AddAndSubWrapModulo : Prop :=
  ∀ (s : State) (ra rb rc : Reg),
    HasCode (.add ra rb rc) 2 0 ∧ HasCode (.sub ra rb rc) 2 1 ∧
    (∃ t, exec (.add ra rb rc) s = .next t ∧
      OnlyRegInt ra ((s.reg rb).toNat + (s.reg rc).toNat) s t ∧ AluFrame s t) ∧
    ∃ t, exec (.sub ra rb rc) s = .next t ∧
      OnlyRegInt ra ((s.reg rb).toNat - (s.reg rc).toNat) s t ∧ AluFrame s t

/-- 43_alu R157, R158: `ADDI` and `SUBI` write x[rb] plus or minus the sign-extended immediate, modulo 2^32. -/
def Obligations.AddiAndSubiWrapModulo : Prop :=
  ∀ (s : State) (ra rb : Reg) (imm : BitVec 16),
    HasCode (.addi ra rb imm) 3 0 ∧ HasCode (.subi ra rb imm) 3 1 ∧
    (∃ t, exec (.addi ra rb imm) s = .next t ∧
      OnlyRegInt ra ((s.reg rb).toNat + extend imm.toNat 16) s t ∧ AluFrame s t) ∧
    ∃ t, exec (.subi ra rb imm) s = .next t ∧
      OnlyRegInt ra ((s.reg rb).toNat - extend imm.toNat 16) s t ∧ AluFrame s t

/-- 43_alu R152 to R154: `AND`, `OR` and `XOR` write the result of which each bit is that of the two operands' bits. -/
def Obligations.BitwiseRegisterResults : Prop :=
  ∀ (s : State) (ra rb rc : Reg),
    HasCode (.and ra rb rc) 2 2 ∧ HasCode (.or ra rb rc) 2 3 ∧ HasCode (.xor ra rb rc) 2 4 ∧
    (∃ t v, exec (.and ra rb rc) s = .next t ∧ OnlyReg ra v s t ∧ AluFrame s t ∧
      ∀ k, v.getLsbD k = ((s.reg rb).getLsbD k && (s.reg rc).getLsbD k)) ∧
    (∃ t v, exec (.or ra rb rc) s = .next t ∧ OnlyReg ra v s t ∧ AluFrame s t ∧
      ∀ k, v.getLsbD k = ((s.reg rb).getLsbD k || (s.reg rc).getLsbD k)) ∧
    ∃ t v, exec (.xor ra rb rc) s = .next t ∧ OnlyReg ra v s t ∧ AluFrame s t ∧
      ∀ k, v.getLsbD k = ((s.reg rb).getLsbD k != (s.reg rc).getLsbD k)

/-- 43_alu R159 to R161: `ANDI`, `ORI` and `XORI` do the same with to32(imm16): its bits 15 to 0 are the immediate's and its
bits 31 to 16 repeat bit 15. -/
def Obligations.BitwiseImmediateResults : Prop :=
  ∀ (s : State) (ra rb : Reg) (imm : BitVec 16),
    ∃ b : Word, (∀ k < 32, b.getLsbD k = imm.getLsbD (min k 15)) ∧
    HasCode (.andi ra rb imm) 3 2 ∧ HasCode (.ori ra rb imm) 3 3 ∧ HasCode (.xori ra rb imm) 3 4 ∧
    (∃ t v, exec (.andi ra rb imm) s = .next t ∧ OnlyReg ra v s t ∧ AluFrame s t ∧
      ∀ k, v.getLsbD k = ((s.reg rb).getLsbD k && b.getLsbD k)) ∧
    (∃ t v, exec (.ori ra rb imm) s = .next t ∧ OnlyReg ra v s t ∧ AluFrame s t ∧
      ∀ k, v.getLsbD k = ((s.reg rb).getLsbD k || b.getLsbD k)) ∧
    ∃ t v, exec (.xori ra rb imm) s = .next t ∧ OnlyReg ra v s t ∧ AluFrame s t ∧
      ∀ k, v.getLsbD k = ((s.reg rb).getLsbD k != b.getLsbD k)

/-- 43_alu R155, R156, and 92 D7 for the alternative, which log 1 keeps as a parameter: `LS` and `RS` are logical shifts by an amount that is the whole unsigned x[rc], or its low 5
bits under the alternative shiftRule; an amount of 32 or more gives 0. -/
def Obligations.RegisterShiftsAreLogical : Prop :=
  ∀ (s : State) (ra rb rc : Reg) (n : Nat),
    (s.cfg.shiftRule = .wholeAmount → n = (s.reg rc).toNat) →
    (s.cfg.shiftRule = .lowFiveBits → n = (s.reg rc).toNat % 32) →
    HasCode (.ls ra rb rc) 2 5 ∧ HasCode (.rs ra rb rc) 2 6 ∧
    (∃ t, exec (.ls ra rb rc) s = .next t ∧
      OnlyRegInt ra (if 32 ≤ n then 0 else (s.reg rb).toNat * 2 ^ n) s t ∧ AluFrame s t) ∧
    ∃ t, exec (.rs ra rb rc) s = .next t ∧
      OnlyRegInt ra (if 32 ≤ n then 0 else ((s.reg rb).toNat / 2 ^ n : Nat)) s t ∧ AluFrame s t

/-- 43_alu R162, R163, and 92 D7 for the alternative, which log 1 keeps as a parameter: `LSI` and `RSI` shift by the unsigned reading of to32(imm16), so that a negative immediate is
an amount of 32 or more and gives 0; under the alternative shiftRule by its low 5 bits. -/
def Obligations.ImmediateShiftsAreLogical : Prop :=
  ∀ (s : State) (ra rb : Reg) (imm : BitVec 16) (n : Nat),
    (s.cfg.shiftRule = .wholeAmount → (n : Int) = extend imm.toNat 16 % 2 ^ 32) →
    (s.cfg.shiftRule = .lowFiveBits → (n : Int) = extend imm.toNat 16 % 32) →
    HasCode (.lsi ra rb imm) 3 5 ∧ HasCode (.rsi ra rb imm) 3 6 ∧
    (∃ t, exec (.lsi ra rb imm) s = .next t ∧
      OnlyRegInt ra (if 32 ≤ n then 0 else (s.reg rb).toNat * 2 ^ n) s t ∧ AluFrame s t) ∧
    ∃ t, exec (.rsi ra rb imm) s = .next t ∧
      OnlyRegInt ra (if 32 ≤ n then 0 else ((s.reg rb).toNat / 2 ^ n : Nat)) s t ∧ AluFrame s t

/-! ### MD -/

/-- 44_md R180: `MUL` writes the low 32 bits of the product of the signed operands. -/
def Obligations.MulWritesTheLowProduct : Prop :=
  ∀ (s : State) (ra rb rc : Reg), HasCode (.mul ra rb rc) 4 0 ∧
    ∃ t, exec (.mul ra rb rc) s = .next t ∧
      OnlyRegInt ra ((s.reg rb).toInt * (s.reg rc).toInt) s t ∧ AluFrame s t

/-- 44_md R181: `DIV` faults on a zero divisor and else writes the quotient truncated toward zero, modulo 2^32. -/
def Obligations.DivTruncatesTowardZero : Prop :=
  ∀ (s : State) (ra rb rc : Reg), HasCode (.div ra rb rc) 4 1 ∧
    (s.reg rc = 0 → Raises (.div ra rb rc) s (.divideByZero s.pc)) ∧
    (s.reg rc ≠ 0 → ∃ t, exec (.div ra rb rc) s = .next t ∧
      OnlyRegInt ra (Int.tdiv (s.reg rb).toInt (s.reg rc).toInt) s t ∧ AluFrame s t)

/-- 44_md R182: `MOD` faults on a zero divisor and else writes the remainder of the truncated or of the floored division, by
modRule, modulo 2^32; the statement holds for both values of the OPEN parameter. -/
def Obligations.ModFollowsModRule : Prop :=
  ∀ (s : State) (ra rb rc : Reg), HasCode (.mod ra rb rc) 4 2 ∧
    (s.reg rc = 0 → Raises (.mod ra rb rc) s (.divideByZero s.pc)) ∧
    (s.reg rc ≠ 0 → s.cfg.modRule = .truncated → ∃ t, exec (.mod ra rb rc) s = .next t ∧
      OnlyRegInt ra (Int.tmod (s.reg rb).toInt (s.reg rc).toInt) s t ∧ AluFrame s t) ∧
    (s.reg rc ≠ 0 → s.cfg.modRule = .floored → ∃ t, exec (.mod ra rb rc) s = .next t ∧
      OnlyRegInt ra (Int.fmod (s.reg rb).toInt (s.reg rc).toInt) s t ∧ AluFrame s t)

/-- 44_md R182: under either rule the remainder is smaller than the divisor in magnitude; truncated it has the sign of the
dividend, floored that of the divisor, and the two agree when the operands have the same sign or the remainder is 0. The
truncated one completes the quotient of `DIV`: b * q + r = a, modulo 2^32. -/
def Obligations.RemainderSizeAndSign : Prop :=
  ∀ a b : Word, b ≠ 0 →
    (∀ rule, |(remainder rule a b).toInt| < |b.toInt|) ∧
    (0 ≤ a.toInt → 0 ≤ (remainder .truncated a b).toInt) ∧
    (a.toInt ≤ 0 → (remainder .truncated a b).toInt ≤ 0) ∧
    (0 < b.toInt → 0 ≤ (remainder .floored a b).toInt) ∧
    (b.toInt < 0 → (remainder .floored a b).toInt ≤ 0) ∧
    quotient a b * b + remainder .truncated a b = a ∧
    ((0 ≤ a.toInt ∧ 0 < b.toInt) ∨ (a.toInt ≤ 0 ∧ b.toInt < 0) ∨ remainder .truncated a b = 0 →
      remainder .truncated a b = remainder .floored a b)

/-! ### JUMP and BRANCH -/

/-- 45_jump R190 to R192: `J` and `JAL` alike write the jump's own address to x[ra], then set the pc to x[rb] + imm16 modulo
2^32, with x[rb] read after the link write: when ra = rb and it is not r0, the base is the link. -/
def Obligations.JumpsLinkAndThenReadTheBase : Prop :=
  ∀ (s : State) (ra rb : Reg) (imm : BitVec 16) (i : Instr), i = .j ra rb imm ∨ i = .jal ra rb imm →
    HasCode (.j ra rb imm) 5 0 ∧ HasCode (.jal ra rb imm) 5 1 ∧
    ∃ t, exec i s = .next t ∧ OnlyReg ra s.pc s t ∧ SameMem s t ∧ SameDevices s t ∧ SameControl s t ∧
      (t.pc.toNat : Int) =
        ((if rb = ra ∧ ra ≠ 0 then s.pc.toNat else (s.reg rb).toNat : Nat) + extend imm.toNat 16) % 2 ^ 32

/-- 46_branch R200 to R204: the pc becomes to32(imm16), an absolute address, when the condition holds of x[ra] and x[rb], and
advances otherwise; EQ and NE compare the patterns, LT and GE the signed values. Nothing else changes. -/
def Obligations.BranchesSetThePcWhenTheConditionHolds : Prop :=
  ∀ (s : State) (ra rb : Reg) (imm : BitVec 16),
    HasCode (.beq ra rb imm) 6 0 ∧ HasCode (.bne ra rb imm) 6 1 ∧
    HasCode (.blt ra rb imm) 6 2 ∧ HasCode (.bge ra rb imm) 6 3 ∧
    BranchesIf (s.reg ra = s.reg rb) (.beq ra rb imm) imm s ∧
    BranchesIf (s.reg ra ≠ s.reg rb) (.bne ra rb imm) imm s ∧
    BranchesIf ((s.reg ra).toInt < (s.reg rb).toInt) (.blt ra rb imm) imm s ∧
    BranchesIf ((s.reg rb).toInt ≤ (s.reg ra).toInt) (.bge ra rb imm) imm s

/-! ### MEM -/

/-- 47_mem R211 to R213: with A = signed(x[rb]) + imm16, `LW`, `LH` and `LB` write the 4, 2 or 1 bytes at A, big-endian and
zero-extended, at any alignment; an access not inside memory raises MemoryFault(A, n) and changes nothing else. -/
def Obligations.LoadsAreBigEndianAndZeroExtended : Prop :=
  ∀ (s : State) (ra rb : Reg) (imm : BitVec 16) (A : Int), A = (s.reg rb).toInt + extend imm.toNat 16 →
    HasCode (.lw ra rb imm) 7 0 ∧ HasCode (.lb ra rb imm) 7 1 ∧ HasCode (.lh ra rb imm) 7 2 ∧
    (¬ (0 ≤ A ∧ A + 4 ≤ s.mem.size) → Raises (.lw ra rb imm) s (.memoryFault s.pc A 4)) ∧
    (¬ (0 ≤ A ∧ A + 1 ≤ s.mem.size) → Raises (.lb ra rb imm) s (.memoryFault s.pc A 1)) ∧
    (¬ (0 ≤ A ∧ A + 2 ≤ s.mem.size) → Raises (.lh ra rb imm) s (.memoryFault s.pc A 2)) ∧
    ∀ a : Nat, (a : Int) = A →
      (a + 4 ≤ s.mem.size → ∃ t, exec (.lw ra rb imm) s = .next t ∧ AluFrame s t ∧
        OnlyRegInt ra ((s.mem.readByte a).toNat * 2 ^ 24 + (s.mem.readByte (a + 1)).toNat * 2 ^ 16 +
          (s.mem.readByte (a + 2)).toNat * 2 ^ 8 + (s.mem.readByte (a + 3)).toNat) s t) ∧
      (a + 1 ≤ s.mem.size → ∃ t, exec (.lb ra rb imm) s = .next t ∧ AluFrame s t ∧
        OnlyRegInt ra (s.mem.readByte a).toNat s t) ∧
      (a + 2 ≤ s.mem.size → ∃ t, exec (.lh ra rb imm) s = .next t ∧ AluFrame s t ∧
        OnlyRegInt ra ((s.mem.readByte a).toNat * 2 ^ 8 + (s.mem.readByte (a + 1)).toNat) s t)

/-- 47_mem R214 to R216: with A = signed(x[ra]) + imm16, `SW`, `SH` and `SB` store the low 4, 2 or 1 bytes of x[rb],
big-endian, at A; every other byte and every register is unchanged. An access not inside memory raises MemoryFault(A, n) and
writes no byte. -/
def Obligations.StoresWriteTheLowBytesBigEndian : Prop :=
  ∀ (s : State) (ra rb : Reg) (imm : BitVec 16) (A : Int), A = (s.reg ra).toInt + extend imm.toNat 16 →
    s.memAddr ra imm = A ∧
    HasCode (.sw ra rb imm) 7 3 ∧ HasCode (.sb ra rb imm) 7 4 ∧ HasCode (.sh ra rb imm) 7 5 ∧
    (¬ (0 ≤ A ∧ A + 4 ≤ s.mem.size) → Raises (.sw ra rb imm) s (.memoryFault s.pc A 4)) ∧
    (¬ (0 ≤ A ∧ A + 1 ≤ s.mem.size) → Raises (.sb ra rb imm) s (.memoryFault s.pc A 1)) ∧
    (¬ (0 ≤ A ∧ A + 2 ≤ s.mem.size) → Raises (.sh ra rb imm) s (.memoryFault s.pc A 2)) ∧
    ∀ (a : Nat) (b0 b1 b2 b3 : Byte), s.mem.wf = true → (a : Int) = s.memAddr ra imm →
      (s.reg rb).toNat = b3.toNat * 2 ^ 24 + b2.toNat * 2 ^ 16 + b1.toNat * 2 ^ 8 + b0.toNat →
      (a + 4 ≤ s.mem.size → ∃ t, exec (.sw ra rb imm) s = .next t ∧ OnlyBytes a [b3, b2, b1, b0] s t ∧
        SameRegs s t ∧ Advanced s t ∧ SameDevices s t ∧ SameControl s t) ∧
      (a + 1 ≤ s.mem.size → ∃ t, exec (.sb ra rb imm) s = .next t ∧ OnlyBytes a [b0] s t ∧
        SameRegs s t ∧ Advanced s t ∧ SameDevices s t ∧ SameControl s t) ∧
      (a + 2 ≤ s.mem.size → ∃ t, exec (.sh ra rb imm) s = .next t ∧ OnlyBytes a [b1, b0] s t ∧
        SameRegs s t ∧ Advanced s t ∧ SameDevices s t ∧ SameControl s t)

/-- 20_memory R46: for a memory of at most 2^30 bytes, reading the address of a load, store, `IN` or `OUT` as an unreduced
integer, or as the unsigned 32-bit pattern to32(x[base] + off), gives the same verdict of the bounds check and, when it
passes, the same address. -/
def Obligations.AddressReadingsAgree : Prop :=
  ∀ (s : State) (r : Reg) (imm : BitVec 16) (z : BitVec 21) (n : Nat), 0 < n → s.mem.size ≤ 2 ^ 30 →
    s.memAddr r imm = (s.reg r).toInt + extend imm.toNat 16 ∧
    s.ioAddr r z = (s.reg r).toInt + imm21 s.cfg.ctlIoImmWidth z ∧
    ∀ (A : Int) (p : Word), A = s.memAddr r imm ∨ A = s.ioAddr r z → (p.toNat : Int) = A % 2 ^ 32 →
      ((0 ≤ A ∧ A + n ≤ s.mem.size) ↔ p.toNat + n ≤ s.mem.size) ∧
      (p.toNat + n ≤ s.mem.size → A = p.toNat)

/-- 20_memory R43: the half-word at a and the half-word at a+2 are the high and low halves of the word at a, a half-word is
its two bytes, a byte load is the byte; and what a store writes, a load of the same width at the same address reads. -/
def Obligations.MixedWidthsViewTheSameBytes : Prop :=
  ∀ (m : Memory) (a : Nat),
    (m.load a .word).toNat = (m.load a .half).toNat * 2 ^ 16 + (m.load (a + 2) .half).toNat ∧
    (m.load a .half).toNat = (m.load a .byte).toNat * 2 ^ 8 + (m.load (a + 1) .byte).toNat ∧
    (m.load a .byte).toNat = (m.readByte a).toNat ∧
    ∀ (w : Width) (v : Word), m.wf = true → a + w.bytes ≤ m.size →
      ((m.store a w v).load a w).toNat = v.toNat % 2 ^ (8 * w.bytes)

/-- 20_memory R54, 70_reset R265: a store over the bytes of the next instruction is seen by its fetch: the CORE then runs
the instruction that was stored. -/
def Obligations.StoredCodeIsRunByTheNextStep : Prop :=
  ∀ (s : State) (ra rb : Reg) (imm : BitVec 16) (j : Instr), s.mem.wf = true → s.run = .running →
    s.memAddr ra imm = s.pc.toNat + 4 → s.pc.toNat + 8 ≤ s.mem.size → s.mem.size ≤ Config.maxMemSize →
    decodeWord (s.reg rb) = .ok j →
    ∃ t, exec (.sw ra rb imm) s = .next t ∧ t.pc.toNat = s.pc.toNat + 4 ∧ step t = exec j t

/-! ### What `OUTD` prints -/

/-- 42_io R133, 92 D22: `OUTD` prints the decimal text of signed(to32(x[ra] + imm21)), so that 7 prints as 7, after what was
printed before. That nothing stands around the number is the model's choice, log 15. -/
def Obligations.OutdPrintsTheSignedDecimal : Prop :=
  ∀ (s : State) (ra rb : Reg) (imm : BitVec 21) (d : Int),
    d = (BitVec.ofInt 32 ((s.reg ra).toInt + imm21 s.cfg.ctlIoImmWidth imm)).toInt →
    ∃ t, exec (.outd ra rb imm) s = .next t ∧
      t.printed = s.printed ++ (toString d).toList.map (fun c => BitVec.ofNat 8 c.toNat)

/-! ### The sizes of pass 1 -/

/-- 30_encoding R88: the size pass 1 gives a statement is the length of the bytes it emits. -/
def Obligations.EmittedSizeIsTheNumberOfBytes : Prop :=
  ∀ (toks : List Asm.Text) (bs : List Byte), Asm.emit toks = .ok bs → bs.length = Asm.emittedSize toks
end

