-- ==== Sys2Proof/Laws/Assembler.lean ====
section
/-! SUPPORT. The assembler's parts: register names are read back, a statement is packed by the first pattern of its mnemonic,
and the packed word is a sum where the fields do not overlap. -/

namespace Sys2Proof.Machine.Asm

/-- The name of a register is read as its index. -/
theorem registerOperand_regName : ∀ r : Reg, registerOperand (regName r) = some r.val := by decide

theorem emit_of_instructionWord {toks : List Text} {w : Word} (h : instructionWord toks = some w) :
    emit toks = .ok (bytesOfWord w) := by
  unfold emit; rw [h]

/-- If the first pattern of a mnemonic fits the operands, it gives the word. -/
theorem findSome_of_find {l : List Pattern} {m : Text} {operands : List Text} {p : Pattern} {w : Word}
    (h : l.find? (fun q => q.mnemonic = m) = some p) (hw : packOperands p operands = some w) :
    l.findSome? (fun q => if q.mnemonic = m then packOperands q operands else none) = some w := by
  induction l with
  | nil => simp at h
  | cons q l ih =>
    rw [List.find?_cons] at h
    rw [List.findSome?_cons]
    by_cases hq : q.mnemonic = m
    · simp only [hq, decide_true, Option.some.injEq] at h
      subst h
      simp [hq, hw]
    · simp only [hq, decide_false] at h
      simp only [hq, if_false]
      exact ih (by simpa using h)

/-- A number shifted left beside one that fits below it. -/
theorem shiftLeft_or_of_lt (hi lo k n : Nat) (h : lo < 2 ^ k) : hi <<< (n + k) ||| lo <<< n = (2 ^ k * hi + lo) <<< n := by
  rw [Nat.add_comm n k, Nat.shiftLeft_add, ← Nat.shiftLeft_or_distrib, ← Nat.shiftLeft_add_eq_or_of_lt h,
    Nat.shiftLeft_eq hi k, Nat.mul_comm hi]

/-- Fields that do not overlap are added. -/
theorem or_fields_eq_add (op fn ra rb rc imm : Nat) (hfn : fn < 8) (hra : ra < 32) (hrb : rb < 32) (hrc : rc < 32)
    (himm : imm < 2 ^ 11) : op <<< 29 ||| fn <<< 26 ||| ra <<< 21 ||| rb <<< 16 ||| rc <<< 11 ||| imm =
      2 ^ 29 * op + 2 ^ 26 * fn + 2 ^ 21 * ra + 2 ^ 16 * rb + 2 ^ 11 * rc + imm := by
  rw [shiftLeft_or_of_lt op fn 3 26 hfn, shiftLeft_or_of_lt _ ra 5 21 hra, shiftLeft_or_of_lt _ rb 5 16 hrb,
    shiftLeft_or_of_lt _ rc 5 11 hrc, ← Nat.shiftLeft_add_eq_or_of_lt himm, Nat.shiftLeft_eq]
  ring

/-! ### Sizes, substitution and the image -/

/-- A single token that is no string, character or escape literal has the size of an instruction. -/
theorem emittedSize_of_plain {tok : Text} (h : isPlainName tok = true) : emittedSize [tok] = 4 := by
  simp only [isPlainName, Bool.and_eq_true, Option.isNone_iff_eq_none] at h
  simp [emittedSize, h]

/-- A text without quotes and backslashes is no string, character or escape literal. -/
theorem isPlainName_of_chars {tok : Text} (h : ∀ c ∈ tok, c ≠ '"' ∧ c ≠ '\'' ∧ c ≠ '\\') : isPlainName tok = true := by
  cases tok with
  | nil => decide
  | cons c cs =>
    obtain ⟨hq, ha, hb⟩ := h c (by simp)
    have hs : stringLiteral (c :: cs) = none := by
      unfold stringLiteral; split
      · rename_i he; injection he with he; exact absurd he hq
      · rfl
    have hc : charLiteral (c :: cs) = none := by
      unfold charLiteral; split
      · rename_i he; injection he with he; exact absurd he ha
      · rfl
    have he : escapeLiteral (c :: cs) = none := by
      unfold escapeLiteral; split
      · rename_i he; injection he with he; exact absurd he hb
      · rename_i he; injection he with he; exact absurd he ha
      · rfl
    simp [isPlainName, hs, hc, he]

/-- The decimal string that replaces a label is such a text. -/
theorem isPlainName_toDigits (n : Nat) : isPlainName (Nat.toDigits 10 n) = true := by
  refine isPlainName_of_chars fun c hc => ?_
  have hd := Nat.isDigit_of_mem_toDigits (by decide) (by decide) hc
  refine ⟨?_, ?_, ?_⟩ <;> rintro rfl <;> exact absurd hd (by decide)

/-- What is looked up stands in the table. -/
theorem mem_of_lookup {labels : List (Text × Nat)} {tok : Text} {n : Nat} (h : labels.lookup tok = some n) :
    (tok, n) ∈ labels := by
  induction labels with
  | nil => simp at h
  | cons l labels ih =>
    obtain ⟨a, b⟩ := l
    rw [List.lookup_cons] at h
    split at h
    · rename_i hk
      simp only [beq_iff_eq, Option.some.injEq] at hk h
      simp [hk, h]
    · simp [ih h]

/-- Substitution keeps a statement's size where every label has a plain name. -/
theorem emittedSize_substitute {labels : List (Text × Nat)} (hl : ∀ l ∈ labels, isPlainName l.1 = true)
    (toks : List Text) : emittedSize (toks.map (substitute labels)) = emittedSize toks := by
  match toks with
  | [] => rfl
  | [tok] =>
    simp only [List.map_cons, List.map_nil, substitute]
    split
    · rename_i n hn
      rw [emittedSize_of_plain (isPlainName_toDigits n), emittedSize_of_plain (hl _ (mem_of_lookup hn))]
    · rfl
  | _ :: _ :: _ => rfl

/-- The image of items one after the other is their images one after the other. -/
theorem emitAll_append {labels : List (Text × Nat)} {before after : List Item} {image : List Byte}
    (h : emitAll labels (before ++ after) = .ok image) :
    ∃ front back, image = front ++ back ∧ emitAll labels before = .ok front ∧ emitAll labels after = .ok back := by
  induction before generalizing image with
  | nil => exact ⟨[], image, rfl, rfl, h⟩
  | cons item before ih =>
    cases item with
    | label name => exact ih h
    | statement toks =>
      simp only [List.cons_append, emitAll] at h ⊢
      cases he : emit (toks.map (substitute labels)) with
      | error e => simp [he] at h
      | ok bs =>
        simp only [he] at h ⊢
        cases hr : emitAll labels (before ++ after) with
        | error e => simp [hr] at h
        | ok rest =>
          simp only [hr, Except.ok.injEq] at h
          obtain ⟨front, back, h1, h2, h3⟩ := ih hr
          exact ⟨bs ++ front, back, by rw [← h, h1, List.append_assoc], by rw [h2], h3⟩

end Sys2Proof.Machine.Asm
end

