-- ==== Sys2Proof/Laws/Decode.lean ====
section
/-! SUPPORT. The fields of an encoded word (30_encoding R61), and the bytes of a word put together again. -/

namespace Sys2Proof

theorem opcode_toNat (w : Word) : (opcode w).toNat = w.toNat / 2 ^ 29 := by
  have := w.isLt
  simp [opcode, BitVec.extractLsb'_toNat, Nat.shiftRight_eq_div_pow]; omega

theorem function_toNat (w : Word) : (function w).toNat = w.toNat / 2 ^ 26 % 8 := by
  simp [function, BitVec.extractLsb'_toNat, Nat.shiftRight_eq_div_pow]

theorem fieldA_val (w : Word) : (fieldA w).val = w.toNat / 2 ^ 21 % 32 := by
  simp [fieldA, Nat.shiftRight_eq_div_pow]

theorem fieldB_val (w : Word) : (fieldB w).val = w.toNat / 2 ^ 16 % 32 := by
  simp [fieldB, Nat.shiftRight_eq_div_pow]

theorem fieldC_val (w : Word) : (fieldC w).val = w.toNat / 2 ^ 11 % 32 := by
  simp [fieldC, Nat.shiftRight_eq_div_pow]

theorem fieldImm16_toNat (w : Word) : (fieldImm16 w).toNat = w.toNat % 2 ^ 16 := by
  simp [fieldImm16, BitVec.extractLsb'_toNat]

theorem fieldImm21_toNat (w : Word) : (fieldImm21 w).toNat = w.toNat % 2 ^ 21 := by
  simp [fieldImm21, BitVec.extractLsb'_toNat]

theorem immOverlap_val (imm : BitVec 21) : (immOverlap imm).val = imm.toNat / 2 ^ 16 := by
  have := imm.isLt
  simp [immOverlap, Nat.shiftRight_eq_div_pow]; omega

section
variable (op fn : BitVec 3) (ra rb rc : Reg)

theorem encodeR_toNat : (encodeR op fn ra rb rc).toNat =
    2 ^ 29 * op.toNat + 2 ^ 26 * fn.toNat + 2 ^ 21 * ra.val + 2 ^ 16 * rb.val + 2 ^ 11 * rc.val := by
  have := op.isLt; have := fn.isLt; have := ra.isLt; have := rb.isLt; have := rc.isLt
  simp [encodeR]; omega

theorem encodeI_toNat (imm : BitVec 16) : (encodeI op fn ra rb imm).toNat =
    2 ^ 29 * op.toNat + 2 ^ 26 * fn.toNat + 2 ^ 21 * ra.val + 2 ^ 16 * rb.val + imm.toNat := by
  have := op.isLt; have := fn.isLt; have := ra.isLt; have := rb.isLt; have := imm.isLt
  simp [encodeI]; omega

theorem encodeC_toNat (imm : BitVec 21) : (encodeC op fn ra imm).toNat =
    2 ^ 29 * op.toNat + 2 ^ 26 * fn.toNat + 2 ^ 21 * ra.val + imm.toNat := by
  have := op.isLt; have := fn.isLt; have := ra.isLt; have := imm.isLt
  simp [encodeC]; omega

theorem opcode_encodeR : opcode (encodeR op fn ra rb rc) = op := by
  have := op.isLt; have := fn.isLt; have := ra.isLt; have := rb.isLt; have := rc.isLt
  apply BitVec.eq_of_toNat_eq; rw [opcode_toNat, encodeR_toNat]; omega

theorem function_encodeR : function (encodeR op fn ra rb rc) = fn := by
  have := op.isLt; have := fn.isLt; have := ra.isLt; have := rb.isLt; have := rc.isLt
  apply BitVec.eq_of_toNat_eq; rw [function_toNat, encodeR_toNat]; omega

theorem fieldA_encodeR : fieldA (encodeR op fn ra rb rc) = ra := by
  have := op.isLt; have := fn.isLt; have := ra.isLt; have := rb.isLt; have := rc.isLt
  apply Fin.ext; rw [fieldA_val, encodeR_toNat]; omega

theorem fieldB_encodeR : fieldB (encodeR op fn ra rb rc) = rb := by
  have := op.isLt; have := fn.isLt; have := ra.isLt; have := rb.isLt; have := rc.isLt
  apply Fin.ext; rw [fieldB_val, encodeR_toNat]; omega

theorem fieldC_encodeR : fieldC (encodeR op fn ra rb rc) = rc := by
  have := op.isLt; have := fn.isLt; have := ra.isLt; have := rb.isLt; have := rc.isLt
  apply Fin.ext; rw [fieldC_val, encodeR_toNat]; omega

theorem opcode_encodeI (imm : BitVec 16) : opcode (encodeI op fn ra rb imm) = op := by
  have := op.isLt; have := fn.isLt; have := ra.isLt; have := rb.isLt; have := imm.isLt
  apply BitVec.eq_of_toNat_eq; rw [opcode_toNat, encodeI_toNat]; omega

theorem function_encodeI (imm : BitVec 16) : function (encodeI op fn ra rb imm) = fn := by
  have := op.isLt; have := fn.isLt; have := ra.isLt; have := rb.isLt; have := imm.isLt
  apply BitVec.eq_of_toNat_eq; rw [function_toNat, encodeI_toNat]; omega

theorem fieldA_encodeI (imm : BitVec 16) : fieldA (encodeI op fn ra rb imm) = ra := by
  have := op.isLt; have := fn.isLt; have := ra.isLt; have := rb.isLt; have := imm.isLt
  apply Fin.ext; rw [fieldA_val, encodeI_toNat]; omega

theorem fieldB_encodeI (imm : BitVec 16) : fieldB (encodeI op fn ra rb imm) = rb := by
  have := op.isLt; have := fn.isLt; have := ra.isLt; have := rb.isLt; have := imm.isLt
  apply Fin.ext; rw [fieldB_val, encodeI_toNat]; omega

theorem fieldImm16_encodeI (imm : BitVec 16) : fieldImm16 (encodeI op fn ra rb imm) = imm := by
  have := op.isLt; have := fn.isLt; have := ra.isLt; have := rb.isLt; have := imm.isLt
  apply BitVec.eq_of_toNat_eq; rw [fieldImm16_toNat, encodeI_toNat]; omega

theorem opcode_encodeC (imm : BitVec 21) : opcode (encodeC op fn ra imm) = op := by
  have := op.isLt; have := fn.isLt; have := ra.isLt; have := imm.isLt
  apply BitVec.eq_of_toNat_eq; rw [opcode_toNat, encodeC_toNat]; omega

theorem function_encodeC (imm : BitVec 21) : function (encodeC op fn ra imm) = fn := by
  have := op.isLt; have := fn.isLt; have := ra.isLt; have := imm.isLt
  apply BitVec.eq_of_toNat_eq; rw [function_toNat, encodeC_toNat]; omega

theorem fieldA_encodeC (imm : BitVec 21) : fieldA (encodeC op fn ra imm) = ra := by
  have := op.isLt; have := fn.isLt; have := ra.isLt; have := imm.isLt
  apply Fin.ext; rw [fieldA_val, encodeC_toNat]; omega

theorem fieldB_encodeC (imm : BitVec 21) : fieldB (encodeC op fn ra imm) = immOverlap imm := by
  have := op.isLt; have := fn.isLt; have := ra.isLt; have := imm.isLt
  apply Fin.ext; rw [fieldB_val, encodeC_toNat, immOverlap_val]; omega

theorem fieldImm21_encodeC (imm : BitVec 21) : fieldImm21 (encodeC op fn ra imm) = imm := by
  have := op.isLt; have := fn.isLt; have := ra.isLt; have := imm.isLt
  apply BitVec.eq_of_toNat_eq; rw [fieldImm21_toNat, encodeC_toNat]; omega

end

/-- A word with its low `m` bits cleared. -/
theorem and_highMask_toNat (w : Word) {m : Nat} (hm : m ≤ 32) :
    (w &&& BitVec.ofNat 32 (2 ^ 32 - 2 ^ m)).toNat = w.toNat / 2 ^ m * 2 ^ m := by
  have hw := w.isLt
  have hp := Nat.two_pow_pos m
  apply Nat.eq_of_testBit_eq
  intro k
  rw [BitVec.toNat_and, BitVec.toNat_ofNat, Nat.mod_eq_of_lt (by omega), Nat.testBit_and, Nat.testBit_mul_two_pow,
    Nat.testBit_div_two_pow]
  have hmask : 2 ^ 32 - 2 ^ m = (2 ^ (32 - m) - 1) * 2 ^ m := by
    rw [Nat.sub_mul, ← Nat.pow_add, Nat.sub_add_cancel hm, Nat.one_mul]
  rw [hmask, Nat.testBit_mul_two_pow, Nat.testBit_two_pow_sub_one]
  by_cases hk : m ≤ k
  · simp only [hk, decide_true, Bool.true_and, Nat.sub_add_cancel hk]
    by_cases hk2 : k < 32
    · simp [show k - m < 32 - m by omega]
    · simp [Nat.testBit_lt_two_pow (lt_of_lt_of_le hw (Nat.pow_le_pow_right (by omega) (by omega : 32 ≤ k)))]
  · simp [hk]

theorem byteOf_toNat (v : Word) (k : Nat) : (byteOf v k).toNat = v.toNat / 2 ^ (8 * k) % 256 := by
  simp [byteOf, BitVec.extractLsb'_toNat, Nat.shiftRight_eq_div_pow]

/-- The bytes of a word, put together, are the word. -/
theorem wordOfBytes_byteOf (v : Word) : wordOfBytes (byteOf v 3) (byteOf v 2) (byteOf v 1) (byteOf v 0) = v := by
  have := v.isLt
  apply BitVec.eq_of_toNat_eq
  simp only [wordOfBytes, byteOf_toNat, BitVec.toNat_ofNat]
  omega

end Sys2Proof
end

