-- ==== Sys2Proof/Laws/Memory.lean ====
section
/-! SUPPORT. Memory: a read after a write, and the canonical form that every memory operation keeps (log 12); the input
device. -/

namespace Sys2Proof.Machine

/-! ### Cells -/

theorem canonicalCells_cons {a : Nat} {v : Byte} {rest : List Host.Cell} :
    canonicalCells ((a, v) :: rest) = true ↔
      v ≠ 0 ∧ (∀ c ∈ rest, a < c.1) ∧ canonicalCells rest = true := by
  simp [canonicalCells, and_assoc]

/-- An address below every listed one reads 0. -/
theorem lookupCell_of_lt {cs : List Host.Cell} {a : Nat} (h : ∀ c ∈ cs, a < c.1) : lookupCell cs a = 0 := by
  induction cs with
  | nil => rfl
  | cons c rest ih =>
    have hc := h c (by simp)
    obtain ⟨b, v⟩ := c
    simp only [lookupCell, if_neg (show ¬b = a by simp at hc; omega)]
    exact ih fun c hc => h c (by simp [hc])

theorem lookupCell_insertCell_ne (cs : List Host.Cell) {a b : Nat} (v : Byte) (h : b ≠ a) :
    lookupCell (insertCell cs a v) b = lookupCell cs b := by
  induction cs with
  | nil => simp only [insertCell]; split <;> simp [lookupCell, Ne.symm h]
  | cons c rest ih =>
    obtain ⟨d, u⟩ := c
    simp only [insertCell]
    split
    · simp only [lookupCell, ih]
    · split
      · subst d; split <;> simp [lookupCell, Ne.symm h]
      · split <;> simp [lookupCell, Ne.symm h]

theorem lookupCell_insertCell_self {cs : List Host.Cell} (hcs : canonicalCells cs = true) (a : Nat) (v : Byte) :
    lookupCell (insertCell cs a v) a = v := by
  induction cs with
  | nil => simp only [insertCell]; split <;> simp_all [lookupCell]
  | cons c rest ih =>
    obtain ⟨d, u⟩ := c
    obtain ⟨-, hlt, hrest⟩ := canonicalCells_cons.1 hcs
    simp only [insertCell]
    split
    · rename_i hda
      simp only [lookupCell, if_neg (show ¬d = a by omega), ih hrest]
    · split
      · rename_i h1 h2
        subst d
        split
        · rename_i hv
          rw [lookupCell_of_lt hlt, hv]
        · simp [lookupCell]
      · rename_i h1 h2
        split
        · rename_i hv
          rw [lookupCell_of_lt, hv]
          intro c hc
          rcases List.mem_cons.1 hc with rfl | hc
          · show a < d; omega
          · have := hlt c hc; omega
        · simp [lookupCell]

theorem mem_insertCell {cs : List Host.Cell} {a : Nat} {v : Byte} {c : Host.Cell} (h : c ∈ insertCell cs a v) :
    c.1 = a ∨ c ∈ cs := by
  induction cs with
  | nil => simp only [insertCell] at h; split at h <;> simp_all
  | cons d rest ih =>
    obtain ⟨d, u⟩ := d
    simp only [insertCell] at h
    split at h
    · rcases List.mem_cons.1 h with rfl | h
      · simp
      · rcases ih h with h | h <;> simp [h]
    · split at h
      · split at h
        · simp [h]
        · rcases List.mem_cons.1 h with rfl | h <;> simp [*]
      · split at h
        · exact .inr h
        · rcases List.mem_cons.1 h with rfl | h
          · simp
          · exact .inr h

theorem canonicalCells_insertCell {cs : List Host.Cell} (hcs : canonicalCells cs = true) (a : Nat) (v : Byte) :
    canonicalCells (insertCell cs a v) = true := by
  induction cs with
  | nil => simp only [insertCell]; split <;> simp_all [canonicalCells]
  | cons c rest ih =>
    obtain ⟨d, u⟩ := c
    obtain ⟨hu, hlt, hrest⟩ := canonicalCells_cons.1 hcs
    simp only [insertCell]
    split
    · rename_i hda
      refine canonicalCells_cons.2 ⟨hu, fun c hc => ?_, ih hrest⟩
      rcases mem_insertCell hc with h | h
      · omega
      · exact hlt c h
    · split
      · rename_i h1 h2
        subst d
        split
        · exact hrest
        · exact canonicalCells_cons.2 ⟨‹_›, hlt, hrest⟩
      · split
        · exact hcs
        · refine canonicalCells_cons.2 ⟨‹_›, fun c hc => ?_, hcs⟩
          rcases List.mem_cons.1 hc with rfl | hc
          · show a < d; omega
          · have := hlt c hc; omega

/-! ### Memory -/

theorem Memory.wf_iff {m : Memory} :
    m.wf = true ↔ canonicalCells m.cells = true ∧ ∀ c ∈ m.cells, c.1 < m.size := by
  simp [Memory.wf]

@[simp] theorem Memory.writeByte_size (m : Memory) (a : Nat) (v : Byte) : (m.writeByte a v).size = m.size := rfl

@[simp] theorem Memory.writeBytes_size (m : Memory) (a : Nat) (bs : List Byte) :
    (m.writeBytes a bs).size = m.size := by
  induction bs generalizing m a with
  | nil => rfl
  | cons b bs ih => simp [Memory.writeBytes, ih]

@[simp] theorem Memory.store_size (m : Memory) (a : Nat) (w : Width) (v : Word) : (m.store a w v).size = m.size := by
  simp [Memory.store]

/-- A byte write keeps the canonical form. -/
theorem Memory.wf_writeByte {m : Memory} (hm : m.wf = true) {a : Nat} (ha : a < m.size) (v : Byte) :
    (m.writeByte a v).wf = true := by
  obtain ⟨h1, h2⟩ := Memory.wf_iff.1 hm
  refine Memory.wf_iff.2 ⟨canonicalCells_insertCell h1 a v, fun c hc => ?_⟩
  rcases mem_insertCell hc with h | h
  · simpa [h] using ha
  · exact h2 c h

/-- A range write inside memory keeps the canonical form. -/
theorem Memory.wf_writeBytes {m : Memory} (hm : m.wf = true) {a : Nat} {bs : List Byte}
    (ha : a + bs.length ≤ m.size) : (m.writeBytes a bs).wf = true := by
  induction bs generalizing m a with
  | nil => exact hm
  | cons b bs ih =>
    simp only [List.length_cons] at ha
    exact ih (Memory.wf_writeByte hm (by omega) b) (by simp; omega)

@[simp] theorem storedBytes_length (v : Word) (w : Width) : (storedBytes v w).length = w.bytes := by
  cases w <;> rfl

/-- A store inside memory keeps the canonical form. -/
theorem Memory.wf_store {m : Memory} (hm : m.wf = true) {a : Nat} {w : Width} (ha : a + w.bytes ≤ m.size) (v : Word) :
    (m.store a w v).wf = true :=
  Memory.wf_writeBytes hm (by simpa using ha)

theorem Memory.readByte_writeByte_ne (m : Memory) {a b : Nat} (v : Byte) (h : b ≠ a) :
    (m.writeByte a v).readByte b = m.readByte b :=
  lookupCell_insertCell_ne _ _ h

theorem Memory.readByte_writeByte_self {m : Memory} (hm : m.wf = true) (a : Nat) (v : Byte) :
    (m.writeByte a v).readByte a = v :=
  lookupCell_insertCell_self (Memory.wf_iff.1 hm).1 _ _

/-- A range write leaves every byte outside the range alone. -/
theorem Memory.readByte_writeBytes_outside (m : Memory) {a b : Nat} {bs : List Byte}
    (h : b < a ∨ a + bs.length ≤ b) : (m.writeBytes a bs).readByte b = m.readByte b := by
  induction bs generalizing m a with
  | nil => rfl
  | cons c bs ih =>
    simp only [List.length_cons] at h
    rw [Memory.writeBytes, ih _ (by omega), Memory.readByte_writeByte_ne _ _ (by omega)]

/-- A range write is read back byte by byte. -/
theorem Memory.readByte_writeBytes_inside {m : Memory} (hm : m.wf = true) {a : Nat} {bs : List Byte}
    (ha : a + bs.length ≤ m.size) (k : Nat) (hk : k < bs.length) :
    (m.writeBytes a bs).readByte (a + k) = bs[k] := by
  induction bs generalizing m a k with
  | nil => simp at hk
  | cons c bs ih =>
    simp only [List.length_cons] at ha hk
    cases k with
    | zero =>
      rw [Memory.writeBytes, Memory.readByte_writeBytes_outside _ (by omega)]
      exact Memory.readByte_writeByte_self hm a c
    | succ k =>
      have hb : a < m.size := by omega
      have := ih (Memory.wf_writeByte hm hb c) (a := a + 1) (by simp; omega) k (by omega)
      simpa [Memory.writeBytes, Nat.add_assoc, Nat.add_comm 1 k] using this

@[simp] theorem Memory.readBytes_length (m : Memory) (a n : Nat) : (m.readBytes a n).length = n := by
  induction n generalizing a with
  | zero => rfl
  | succ n ih => simp [Memory.readBytes, ih]

theorem Memory.readBytes_getElem (m : Memory) (a n k : Nat) (h : k < (m.readBytes a n).length) :
    (m.readBytes a n)[k] = m.readByte (a + k) := by
  induction n generalizing a k with
  | zero => simp at h
  | succ n ih =>
    cases k with
    | zero => rfl
    | succ k => simp [Memory.readBytes, ih, Nat.add_assoc, Nat.add_comm 1 k]

/-! ### The input device -/

/-- `DevIn(n)` answers bytes exactly when the stream begins with `n` bytes. -/
theorem devIn_eq_bytes {n : Nat} {items rest : List InputItem} {bs : List Byte} :
    devIn n items = .bytes bs rest ↔ bs.length = n ∧ items = bs.map .byte ++ rest := by
  induction n generalizing items bs with
  | zero => cases bs <;> simp [devIn, eq_comm]
  | succ n ih =>
    match items with
    | [] => cases bs <;> simp [devIn]
    | .inputError :: items => cases bs <;> simp [devIn]
    | .byte b :: items =>
      have ih' := fun bs => @ih items bs
      cases hd : devIn n items with
      | bytes bs' rest' =>
        rw [hd] at ih'
        cases bs with
        | nil => simp [devIn, hd, DevInResult.cons]
        | cons c bs =>
          have := ih' bs
          simp only [DevInResult.bytes.injEq] at this
          simp [devIn, hd, DevInResult.cons, and_assoc]
          tauto
      | inputError | blocked =>
        rw [hd] at ih'
        cases bs with
        | nil => simp [devIn, hd, DevInResult.cons]
        | cons c bs =>
          have := ih' bs
          simp at this
          simp [devIn, hd, DevInResult.cons]
          intro h1 h2 h3; exact this h1 h3

/-- `DevIn(n)` reports the error that stands in the stream before `n` bytes. -/
theorem devIn_inputError {n : Nat} {bs : List Byte} {rest : List InputItem} (h : bs.length < n) :
    devIn n (bs.map .byte ++ .inputError :: rest) = .inputError := by
  induction bs generalizing n with
  | nil => cases n with
    | zero => simp at h
    | succ n => rfl
  | cons b bs ih => cases n with
    | zero => simp at h
    | succ n => simp only [List.map_cons, List.cons_append, devIn, ih (by simpa using h)]; rfl

/-- `DevIn(n)` blocks when fewer than `n` bytes will come. -/
theorem devIn_blocked {n : Nat} {bs : List Byte} (h : bs.length < n) : devIn n (bs.map .byte) = .blocked := by
  induction bs generalizing n with
  | nil => cases n with
    | zero => simp at h
    | succ n => rfl
  | cons b bs ih => cases n with
    | zero => simp at h
    | succ n => simp only [List.map_cons, devIn, ih (by simpa using h)]; rfl

/-- `DevIn(n)` blocks only when fewer than `n` items remain. -/
theorem length_of_devIn_blocked {n : Nat} {items : List InputItem} (h : devIn n items = .blocked) :
    items.length < n := by
  induction n generalizing items with
  | zero => simp [devIn] at h
  | succ n ih =>
    match items with
    | [] => simp
    | .inputError :: _ => simp [devIn] at h
    | .byte b :: items =>
      simp only [devIn] at h
      cases hd : devIn n items <;> rw [hd] at h <;> simp [DevInResult.cons] at h
      have := ih hd
      simp; omega

end Sys2Proof.Machine
end

