-- ==== Sys2Proof/Laws/PerInstr.lean ====
section
/-! SUPPORT. Facts about every instruction as syntax, one lemma per constructor: the family `OpcodeBits`, that the six
tag bits of an instruction's word are those its row of spec/opcode_table.json fixes (30_encoding R68, R69). -/

namespace Sys2Proof.Laws

/-- The value of bits 31 to 26 that the opcode table fixes for an instruction (`fixed` of its row). -/
def tableTag : Instr → Nat
  | .halt => 0
  | .nop => 1
  | .sleep _ _ => 2
  | .in_ _ _ _ => 8
  | .out _ _ _ => 9
  | .outd _ _ _ => 10
  | .outb _ _ _ => 11
  | .outh _ _ _ => 12
  | .outc _ _ _ => 13
  | .cl => 14
  | .add _ _ _ => 16
  | .sub _ _ _ => 17
  | .and _ _ _ => 18
  | .or _ _ _ => 19
  | .xor _ _ _ => 20
  | .ls _ _ _ => 21
  | .rs _ _ _ => 22
  | .addi _ _ _ => 24
  | .subi _ _ _ => 25
  | .andi _ _ _ => 26
  | .ori _ _ _ => 27
  | .xori _ _ _ => 28
  | .lsi _ _ _ => 29
  | .rsi _ _ _ => 30
  | .mul _ _ _ => 32
  | .div _ _ _ => 33
  | .mod _ _ _ => 34
  | .j _ _ _ => 40
  | .jal _ _ _ => 41
  | .beq _ _ _ => 48
  | .bne _ _ _ => 49
  | .blt _ _ _ => 50
  | .bge _ _ _ => 51
  | .lw _ _ _ => 56
  | .lb _ _ _ => 57
  | .lh _ _ _ => 58
  | .sw _ _ _ => 59
  | .sb _ _ _ => 60
  | .sh _ _ _ => 61

/-- The tag bits of an encoded instruction are those of its row in the opcode table. -/
def OpcodeBits.Statement (i : Instr) : Prop := (encode i).toNat / 2 ^ 26 = tableTag i

theorem tagOf (w : Word) : w.toNat / 2 ^ 26 = (opcode w).toNat * 8 + (function w).toNat := by
  have := w.isLt
  rw [opcode_toNat, function_toNat]; omega

namespace OpcodeBits

theorem halt : Statement .halt := by
  rw [Statement, tagOf]; rfl

theorem nop : Statement .nop := by
  rw [Statement, tagOf]; rfl

theorem sleep (ra : Reg) (imm : BitVec 21) : Statement (.sleep ra imm) := by
  rw [Statement, tagOf, encode, opcode_encodeC, function_encodeC]; rfl

theorem in_ (ra rb : Reg) (imm : BitVec 21) : Statement (.in_ ra rb imm) := by
  rw [Statement, tagOf, encode, opcode_encodeC, function_encodeC]; rfl

theorem out (ra rb : Reg) (imm : BitVec 21) : Statement (.out ra rb imm) := by
  rw [Statement, tagOf, encode, opcode_encodeC, function_encodeC]; rfl

theorem outd (ra rb : Reg) (imm : BitVec 21) : Statement (.outd ra rb imm) := by
  rw [Statement, tagOf, encode, opcode_encodeC, function_encodeC]; rfl

theorem outb (ra rb : Reg) (imm : BitVec 21) : Statement (.outb ra rb imm) := by
  rw [Statement, tagOf, encode, opcode_encodeC, function_encodeC]; rfl

theorem outh (ra rb : Reg) (imm : BitVec 21) : Statement (.outh ra rb imm) := by
  rw [Statement, tagOf, encode, opcode_encodeC, function_encodeC]; rfl

theorem outc (ra rb : Reg) (imm : BitVec 21) : Statement (.outc ra rb imm) := by
  rw [Statement, tagOf, encode, opcode_encodeC, function_encodeC]; rfl

theorem cl : Statement .cl := by
  rw [Statement, tagOf]; rfl

theorem add (ra rb rc : Reg) : Statement (.add ra rb rc) := by
  rw [Statement, tagOf, encode, opcode_encodeR, function_encodeR]; rfl

theorem sub (ra rb rc : Reg) : Statement (.sub ra rb rc) := by
  rw [Statement, tagOf, encode, opcode_encodeR, function_encodeR]; rfl

theorem and (ra rb rc : Reg) : Statement (.and ra rb rc) := by
  rw [Statement, tagOf, encode, opcode_encodeR, function_encodeR]; rfl

theorem or (ra rb rc : Reg) : Statement (.or ra rb rc) := by
  rw [Statement, tagOf, encode, opcode_encodeR, function_encodeR]; rfl

theorem xor (ra rb rc : Reg) : Statement (.xor ra rb rc) := by
  rw [Statement, tagOf, encode, opcode_encodeR, function_encodeR]; rfl

theorem ls (ra rb rc : Reg) : Statement (.ls ra rb rc) := by
  rw [Statement, tagOf, encode, opcode_encodeR, function_encodeR]; rfl

theorem rs (ra rb rc : Reg) : Statement (.rs ra rb rc) := by
  rw [Statement, tagOf, encode, opcode_encodeR, function_encodeR]; rfl

theorem addi (ra rb : Reg) (imm : BitVec 16) : Statement (.addi ra rb imm) := by
  rw [Statement, tagOf, encode, opcode_encodeI, function_encodeI]; rfl

theorem subi (ra rb : Reg) (imm : BitVec 16) : Statement (.subi ra rb imm) := by
  rw [Statement, tagOf, encode, opcode_encodeI, function_encodeI]; rfl

theorem andi (ra rb : Reg) (imm : BitVec 16) : Statement (.andi ra rb imm) := by
  rw [Statement, tagOf, encode, opcode_encodeI, function_encodeI]; rfl

theorem ori (ra rb : Reg) (imm : BitVec 16) : Statement (.ori ra rb imm) := by
  rw [Statement, tagOf, encode, opcode_encodeI, function_encodeI]; rfl

theorem xori (ra rb : Reg) (imm : BitVec 16) : Statement (.xori ra rb imm) := by
  rw [Statement, tagOf, encode, opcode_encodeI, function_encodeI]; rfl

theorem lsi (ra rb : Reg) (imm : BitVec 16) : Statement (.lsi ra rb imm) := by
  rw [Statement, tagOf, encode, opcode_encodeI, function_encodeI]; rfl

theorem rsi (ra rb : Reg) (imm : BitVec 16) : Statement (.rsi ra rb imm) := by
  rw [Statement, tagOf, encode, opcode_encodeI, function_encodeI]; rfl

theorem mul (ra rb rc : Reg) : Statement (.mul ra rb rc) := by
  rw [Statement, tagOf, encode, opcode_encodeR, function_encodeR]; rfl

theorem div (ra rb rc : Reg) : Statement (.div ra rb rc) := by
  rw [Statement, tagOf, encode, opcode_encodeR, function_encodeR]; rfl

theorem mod (ra rb rc : Reg) : Statement (.mod ra rb rc) := by
  rw [Statement, tagOf, encode, opcode_encodeR, function_encodeR]; rfl

theorem j (ra rb : Reg) (imm : BitVec 16) : Statement (.j ra rb imm) := by
  rw [Statement, tagOf, encode, opcode_encodeI, function_encodeI]; rfl

theorem jal (ra rb : Reg) (imm : BitVec 16) : Statement (.jal ra rb imm) := by
  rw [Statement, tagOf, encode, opcode_encodeI, function_encodeI]; rfl

theorem beq (ra rb : Reg) (imm : BitVec 16) : Statement (.beq ra rb imm) := by
  rw [Statement, tagOf, encode, opcode_encodeI, function_encodeI]; rfl

theorem bne (ra rb : Reg) (imm : BitVec 16) : Statement (.bne ra rb imm) := by
  rw [Statement, tagOf, encode, opcode_encodeI, function_encodeI]; rfl

theorem blt (ra rb : Reg) (imm : BitVec 16) : Statement (.blt ra rb imm) := by
  rw [Statement, tagOf, encode, opcode_encodeI, function_encodeI]; rfl

theorem bge (ra rb : Reg) (imm : BitVec 16) : Statement (.bge ra rb imm) := by
  rw [Statement, tagOf, encode, opcode_encodeI, function_encodeI]; rfl

theorem lw (ra rb : Reg) (imm : BitVec 16) : Statement (.lw ra rb imm) := by
  rw [Statement, tagOf, encode, opcode_encodeI, function_encodeI]; rfl

theorem lb (ra rb : Reg) (imm : BitVec 16) : Statement (.lb ra rb imm) := by
  rw [Statement, tagOf, encode, opcode_encodeI, function_encodeI]; rfl

theorem lh (ra rb : Reg) (imm : BitVec 16) : Statement (.lh ra rb imm) := by
  rw [Statement, tagOf, encode, opcode_encodeI, function_encodeI]; rfl

theorem sw (ra rb : Reg) (imm : BitVec 16) : Statement (.sw ra rb imm) := by
  rw [Statement, tagOf, encode, opcode_encodeI, function_encodeI]; rfl

theorem sb (ra rb : Reg) (imm : BitVec 16) : Statement (.sb ra rb imm) := by
  rw [Statement, tagOf, encode, opcode_encodeI, function_encodeI]; rfl

theorem sh (ra rb : Reg) (imm : BitVec 16) : Statement (.sh ra rb imm) := by
  rw [Statement, tagOf, encode, opcode_encodeI, function_encodeI]; rfl

end OpcodeBits

end Sys2Proof.Laws
end

