-- ==== Sys2Proof/Laws/State.lean ====
section
/-! SUPPORT. One lemma per update of State and per field, so that no later proof unfolds a record update; and what a
register write does (10_state R21). -/

namespace Sys2Proof.Machine

variable (s : State)

/-! ### Register writes -/

@[simp] theorem State.reg_zero : s.reg 0 = 0 := rfl

theorem State.setReg_zero (v : Word) : s.setReg 0 v = s := rfl

/-- A register write is read back, discarded for x[0], and seen by no other register. -/
theorem State.reg_setReg (i j : Reg) (v : Word) :
    (s.setReg i v).reg j = if j = 0 then 0 else if j = i then v else s.reg j := by
  obtain ⟨i, hi⟩ := i
  obtain ⟨j, hj⟩ := j
  cases j with
  | zero => rfl
  | succ j =>
    cases i with
    | zero => simp [State.setReg, State.reg, Fin.ext_iff]
    | succ i => simp [State.setReg, State.reg, Fin.ext_iff, Vector.getElem_set, eq_comm]

@[simp] theorem State.setReg_pc (r : Reg) (v : Word) : (s.setReg r v).pc = s.pc := by
  obtain ⟨r, hr⟩ := r; cases r <;> rfl
@[simp] theorem State.setReg_mem (r : Reg) (v : Word) : (s.setReg r v).mem = s.mem := by
  obtain ⟨r, hr⟩ := r; cases r <;> rfl
@[simp] theorem State.setReg_run (r : Reg) (v : Word) : (s.setReg r v).run = s.run := by
  obtain ⟨r, hr⟩ := r; cases r <;> rfl
@[simp] theorem State.setReg_input (r : Reg) (v : Word) : (s.setReg r v).input = s.input := by
  obtain ⟨r, hr⟩ := r; cases r <;> rfl
@[simp] theorem State.setReg_events (r : Reg) (v : Word) : (s.setReg r v).events = s.events := by
  obtain ⟨r, hr⟩ := r; cases r <;> rfl
@[simp] theorem State.setReg_cfg (r : Reg) (v : Word) : (s.setReg r v).cfg = s.cfg := by
  obtain ⟨r, hr⟩ := r; cases r <;> rfl

/-! ### The other updates -/

@[simp] theorem State.jumpTo_regs (t : Word) : (s.jumpTo t).regs = s.regs := rfl
@[simp] theorem State.jumpTo_pc (t : Word) : (s.jumpTo t).pc = t := rfl
@[simp] theorem State.jumpTo_mem (t : Word) : (s.jumpTo t).mem = s.mem := rfl
@[simp] theorem State.jumpTo_run (t : Word) : (s.jumpTo t).run = s.run := rfl
@[simp] theorem State.jumpTo_input (t : Word) : (s.jumpTo t).input = s.input := rfl
@[simp] theorem State.jumpTo_events (t : Word) : (s.jumpTo t).events = s.events := rfl
@[simp] theorem State.jumpTo_cfg (t : Word) : (s.jumpTo t).cfg = s.cfg := rfl
@[simp] theorem State.jumpTo_reg (t : Word) (r : Reg) : (s.jumpTo t).reg r = s.reg r := by
  obtain ⟨r, hr⟩ := r; cases r <;> rfl

@[simp] theorem State.advance_regs : s.advance.regs = s.regs := rfl
@[simp] theorem State.advance_pc : s.advance.pc = s.pc + 4 := rfl
@[simp] theorem State.advance_mem : s.advance.mem = s.mem := rfl
@[simp] theorem State.advance_run : s.advance.run = s.run := rfl
@[simp] theorem State.advance_input : s.advance.input = s.input := rfl
@[simp] theorem State.advance_events : s.advance.events = s.events := rfl
@[simp] theorem State.advance_cfg : s.advance.cfg = s.cfg := rfl
@[simp] theorem State.advance_reg (r : Reg) : s.advance.reg r = s.reg r := by
  obtain ⟨r, hr⟩ := r; cases r <;> rfl

@[simp] theorem State.setMem_regs (m : Memory) : (s.setMem m).regs = s.regs := rfl
@[simp] theorem State.setMem_pc (m : Memory) : (s.setMem m).pc = s.pc := rfl
@[simp] theorem State.setMem_mem (m : Memory) : (s.setMem m).mem = m := rfl
@[simp] theorem State.setMem_run (m : Memory) : (s.setMem m).run = s.run := rfl
@[simp] theorem State.setMem_input (m : Memory) : (s.setMem m).input = s.input := rfl
@[simp] theorem State.setMem_events (m : Memory) : (s.setMem m).events = s.events := rfl
@[simp] theorem State.setMem_cfg (m : Memory) : (s.setMem m).cfg = s.cfg := rfl
@[simp] theorem State.setMem_reg (m : Memory) (r : Reg) : (s.setMem m).reg r = s.reg r := by
  obtain ⟨r, hr⟩ := r; cases r <;> rfl

@[simp] theorem State.setInput_regs (items : List InputItem) : (s.setInput items).regs = s.regs := rfl
@[simp] theorem State.setInput_pc (items : List InputItem) : (s.setInput items).pc = s.pc := rfl
@[simp] theorem State.setInput_mem (items : List InputItem) : (s.setInput items).mem = s.mem := rfl
@[simp] theorem State.setInput_run (items : List InputItem) : (s.setInput items).run = s.run := rfl
@[simp] theorem State.setInput_input (items : List InputItem) : (s.setInput items).input = items := rfl
@[simp] theorem State.setInput_events (items : List InputItem) : (s.setInput items).events = s.events := rfl
@[simp] theorem State.setInput_cfg (items : List InputItem) : (s.setInput items).cfg = s.cfg := rfl
@[simp] theorem State.setInput_reg (items : List InputItem) (r : Reg) : (s.setInput items).reg r = s.reg r := by
  obtain ⟨r, hr⟩ := r; cases r <;> rfl

@[simp] theorem State.emit_regs (e : Event) : (s.emit e).regs = s.regs := rfl
@[simp] theorem State.emit_pc (e : Event) : (s.emit e).pc = s.pc := rfl
@[simp] theorem State.emit_mem (e : Event) : (s.emit e).mem = s.mem := rfl
@[simp] theorem State.emit_run (e : Event) : (s.emit e).run = s.run := rfl
@[simp] theorem State.emit_input (e : Event) : (s.emit e).input = s.input := rfl
@[simp] theorem State.emit_events (e : Event) : (s.emit e).events = s.events ++ [e] := rfl
@[simp] theorem State.emit_cfg (e : Event) : (s.emit e).cfg = s.cfg := rfl
@[simp] theorem State.emit_reg (e : Event) (r : Reg) : (s.emit e).reg r = s.reg r := by
  obtain ⟨r, hr⟩ := r; cases r <;> rfl

@[simp] theorem State.setHalted_regs : s.setHalted.regs = s.regs := rfl
@[simp] theorem State.setHalted_pc : s.setHalted.pc = s.pc := rfl
@[simp] theorem State.setHalted_mem : s.setHalted.mem = s.mem := rfl
@[simp] theorem State.setHalted_run : s.setHalted.run = .halted := rfl
@[simp] theorem State.setHalted_input : s.setHalted.input = s.input := rfl
@[simp] theorem State.setHalted_events : s.setHalted.events = s.events := rfl
@[simp] theorem State.setHalted_cfg : s.setHalted.cfg = s.cfg := rfl
@[simp] theorem State.setHalted_reg (r : Reg) : s.setHalted.reg r = s.reg r := by
  obtain ⟨r, hr⟩ := r; cases r <;> rfl

@[simp] theorem State.setFaulted_regs (f : Fault) : (s.setFaulted f).regs = s.regs := rfl
@[simp] theorem State.setFaulted_pc (f : Fault) : (s.setFaulted f).pc = s.pc := rfl
@[simp] theorem State.setFaulted_mem (f : Fault) : (s.setFaulted f).mem = s.mem := rfl
@[simp] theorem State.setFaulted_run (f : Fault) : (s.setFaulted f).run = .faulted f := rfl
@[simp] theorem State.setFaulted_input (f : Fault) : (s.setFaulted f).input = s.input := rfl
@[simp] theorem State.setFaulted_events (f : Fault) : (s.setFaulted f).events = s.events := rfl
@[simp] theorem State.setFaulted_cfg (f : Fault) : (s.setFaulted f).cfg = s.cfg := rfl
@[simp] theorem State.setFaulted_reg (f : Fault) (r : Reg) : (s.setFaulted f).reg r = s.reg r := by
  obtain ⟨r, hr⟩ := r; cases r <;> rfl

end Sys2Proof.Machine
end

