-- ==== Sys2Proof/Laws/Exec.lean ====
section
/-! SUPPORT. What each shared operation can do: if it answers a next state, then that state is one of these; and, from
them, everything a next state of exec or of step can be. -/

namespace Sys2Proof.Machine

variable {s t : State}

theorem raise_next {f : Fault} : raise f s = .next t ↔ t = s.setFaulted f := by
  simp [raise, eq_comm]

theorem complete_next : complete s = .next t ↔ t = s.advance := by
  simp [complete, eq_comm]

theorem completeWith_next {r : Reg} {v : Word} : completeWith r v s = .next t ↔ t = (s.setReg r v).advance :=
  complete_next

theorem aluReg_next {f : Word → Word → Word} {ra rb rc : Reg} :
    aluReg f ra rb rc s = .next t ↔ t = (s.setReg ra (f (s.reg rb) (s.reg rc))).advance :=
  completeWith_next

theorem aluImm_next {f : Word → Word → Word} {ra rb : Reg} {imm : BitVec 16} :
    aluImm f ra rb imm s = .next t ↔ t = (s.setReg ra (f (s.reg rb) (imm16Word imm))).advance :=
  completeWith_next

theorem divide_next {f : Word → Word → Word} {ra rb rc : Reg} (h : divide f ra rb rc s = .next t) :
    (s.reg rc = 0 ∧ t = s.setFaulted (.divideByZero s.pc)) ∨
    (s.reg rc ≠ 0 ∧ t = (s.setReg ra (f (s.reg rb) (s.reg rc))).advance) := by
  unfold divide at h
  split at h
  · exact .inl ⟨‹_›, raise_next.1 h⟩
  · exact .inr ⟨‹_›, completeWith_next.1 h⟩

theorem linkAndJump_next {ra rb : Reg} {imm : BitVec 16} : linkAndJump ra rb imm s = .next t ↔
    t = (s.setReg ra s.pc).jumpTo ((s.setReg ra s.pc).reg rb + imm16Word imm) := by
  simp [linkAndJump, eq_comm]

theorem branchIf_next {cond : Word → Word → Bool} {ra rb : Reg} {imm : BitVec 16} :
    branchIf cond ra rb imm s = .next t ↔
      t = if cond (s.reg ra) (s.reg rb) then s.jumpTo (imm16Word imm) else s.advance := by
  unfold branchIf
  split <;> simp [complete, eq_comm]

theorem loadFrom_next {w : Width} {ra rb : Reg} {imm : BitVec 16} (h : loadFrom w ra rb imm s = .next t) :
    (s.mem.InBounds (s.memAddr rb imm) w.bytes ∧
      t = (s.setReg ra (s.mem.load (s.memAddr rb imm).toNat w)).advance) ∨
    (¬ s.mem.InBounds (s.memAddr rb imm) w.bytes ∧
      t = s.setFaulted (.memoryFault s.pc (s.memAddr rb imm) w.bytes)) := by
  simp only [loadFrom] at h
  split at h
  · exact .inl ⟨‹_›, completeWith_next.1 h⟩
  · exact .inr ⟨‹_›, raise_next.1 h⟩

theorem storeTo_next {w : Width} {ra rb : Reg} {imm : BitVec 16} (h : storeTo w ra rb imm s = .next t) :
    (s.mem.InBounds (s.memAddr ra imm) w.bytes ∧
      t = (s.setMem (s.mem.store (s.memAddr ra imm).toNat w (s.reg rb))).advance) ∨
    (¬ s.mem.InBounds (s.memAddr ra imm) w.bytes ∧
      t = s.setFaulted (.memoryFault s.pc (s.memAddr ra imm) w.bytes)) := by
  simp only [storeTo] at h
  split at h
  · exact .inl ⟨‹_›, complete_next.1 h⟩
  · exact .inr ⟨‹_›, raise_next.1 h⟩

theorem execSleep_next {ra : Reg} {imm : BitVec 21} (h : execSleep ra imm s = .next t) :
    ((s.ioSum ra imm).toInt < 0 ∧ t = s.setFaulted (.ioArgumentFault s.pc)) ∨
    (0 ≤ (s.ioSum ra imm).toInt ∧ t = (s.emit (.delay (s.ioSum ra imm).toInt.toNat)).advance) := by
  unfold execSleep at h
  split at h
  · exact .inl ⟨‹_›, raise_next.1 h⟩
  · exact .inr ⟨by omega, complete_next.1 h⟩

theorem execIn_next {ra rb : Reg} {imm : BitVec 21} (h : execIn ra rb imm s = .next t) :
    (inCount (s.reg ra) (s.reg rb) < 0 ∧ t = s.setFaulted (.ioArgumentFault s.pc)) ∨
    (inCount (s.reg ra) (s.reg rb) = 0 ∧ t = s.advance) ∨
    (0 < inCount (s.reg ra) (s.reg rb) ∧
      ¬ s.mem.InBounds (s.ioAddr ra imm) (inCount (s.reg ra) (s.reg rb)).toNat ∧
      t = s.setFaulted (.memoryFault s.pc (s.ioAddr ra imm) (inCount (s.reg ra) (s.reg rb)).toNat)) ∨
    (0 < inCount (s.reg ra) (s.reg rb) ∧
      s.mem.InBounds (s.ioAddr ra imm) (inCount (s.reg ra) (s.reg rb)).toNat ∧
      ((devIn (inCount (s.reg ra) (s.reg rb)).toNat s.input = .inputError ∧
          t = s.setFaulted (.inputFormatError s.pc)) ∨
        ∃ bs rest, devIn (inCount (s.reg ra) (s.reg rb)).toNat s.input = .bytes bs rest ∧
          t = ((s.setMem (s.mem.writeBytes (s.ioAddr ra imm).toNat bs)).setInput rest).advance)) := by
  simp only [execIn] at h
  split at h
  · exact .inl ⟨‹_›, raise_next.1 h⟩
  · split at h
    · exact .inr (.inl ⟨‹_›, complete_next.1 h⟩)
    · have hpos : 0 < inCount (s.reg ra) (s.reg rb) := by omega
      split at h
      · refine .inr (.inr (.inr ⟨hpos, ‹_›, ?_⟩))
        split at h
        · exact .inr ⟨_, _, ‹_›, complete_next.1 h⟩
        · exact .inl ⟨‹_›, raise_next.1 h⟩
        · cases h
      · exact .inr (.inr (.inl ⟨hpos, ‹_›, raise_next.1 h⟩))

theorem execOut_next {ra rb : Reg} {imm : BitVec 21} (h : execOut ra rb imm s = .next t) :
    ((s.reg rb).toInt ≤ s.ioAddr ra imm ∧ t = s.advance) ∨
    (s.ioAddr ra imm < (s.reg rb).toInt ∧
      s.mem.InBounds (s.ioAddr ra imm) ((s.reg rb).toInt - s.ioAddr ra imm).toNat ∧
      t = (s.emit (.out (s.mem.readBytes (s.ioAddr ra imm).toNat
        ((s.reg rb).toInt - s.ioAddr ra imm).toNat))).advance) ∨
    (s.ioAddr ra imm < (s.reg rb).toInt ∧
      ¬ s.mem.InBounds (s.ioAddr ra imm) ((s.reg rb).toInt - s.ioAddr ra imm).toNat ∧
      t = s.setFaulted (.memoryFault s.pc (s.ioAddr ra imm) ((s.reg rb).toInt - s.ioAddr ra imm).toNat)) := by
  simp only [execOut] at h
  split at h
  · split at h
    · exact .inr (.inl ⟨‹_›, ‹_›, complete_next.1 h⟩)
    · exact .inr (.inr ⟨‹_›, ‹_›, raise_next.1 h⟩)
  · exact .inl ⟨by omega, complete_next.1 h⟩

theorem outNumber_next {k : NumKind} {ra : Reg} {imm : BitVec 21} :
    outNumber k ra imm s = .next t ↔ t = (s.emit (.outNum k (s.ioSum ra imm))).advance :=
  complete_next

theorem execOutc_next {ra : Reg} {imm : BitVec 21} (h : execOutc ra imm s = .next t) :
    (((s.ioSum ra imm).toInt < 0 ∨ maxCodePoint < (s.ioSum ra imm).toInt) ∧
      t = s.setFaulted (.ioArgumentFault s.pc)) ∨
    (0 ≤ (s.ioSum ra imm).toInt ∧ (s.ioSum ra imm).toInt ≤ maxCodePoint ∧
      t = (s.emit (.outChar (s.ioSum ra imm).toInt.toNat)).advance) := by
  simp only [execOutc] at h
  split at h
  · exact .inl ⟨‹_›, raise_next.1 h⟩
  · exact .inr ⟨by omega, by omega, complete_next.1 h⟩

/-- Everything a next state of `exec i s` can be, with what is known of `i` in each case. -/
inductive Effect (i : Instr) (s : State) : State → Prop where
  | fault (f : Fault) (h : f = .inputFormatError s.pc ∨ f = .divideByZero s.pc ∨ f = .ioArgumentFault s.pc ∨
      ∃ a n, f = .memoryFault s.pc a n) : Effect i s (s.setFaulted f)
  | halt (h : i = .halt) : Effect i s s.setHalted.advance
  | advance : Effect i s s.advance
  | emit (e : Event) : Effect i s (s.emit e).advance
  | reg (r : Reg) (v : Word) (hd : destination i = some r) (hp : maySetPc i = false) : Effect i s (s.setReg r v).advance
  | jump (r : Reg) (v target : Word) (hd : destination i = some r) (hp : maySetPc i = true) :
      Effect i s ((s.setReg r v).jumpTo target)
  | branch (target : Word) (hp : maySetPc i = true) : Effect i s (s.jumpTo target)
  | store (a : Nat) (bs : List Byte) (hb : a + bs.length ≤ s.mem.size) (hm : mayWriteMemory i = true) :
      Effect i s (s.setMem (s.mem.writeBytes a bs)).advance
  | input (a : Nat) (bs : List Byte) (rest : List InputItem) (hb : a + bs.length ≤ s.mem.size)
      (hm : mayWriteMemory i = true) (hi : s.input = bs.map .byte ++ rest) :
      Effect i s ((s.setMem (s.mem.writeBytes a bs)).setInput rest).advance

/-- What a next state of exec can be. -/
theorem exec_effect {i : Instr} (h : exec i s = .next t) : Effect i s t := by
  have range : ∀ (A : Int) (n : Nat), s.mem.InBounds A n → A.toNat + n ≤ s.mem.size := by
    intro A n h; unfold Memory.InBounds at h; omega
  cases i with
  | halt => obtain rfl := complete_next.1 h; exact .halt rfl
  | nop => obtain rfl := complete_next.1 h; exact .advance
  | sleep ra imm =>
    rcases execSleep_next h with ⟨_, rfl⟩ | ⟨_, rfl⟩
    · exact .fault _ (by simp)
    · exact .emit _
  | in_ ra rb imm =>
    rcases execIn_next h with ⟨_, rfl⟩ | ⟨_, rfl⟩ | ⟨_, _, rfl⟩ | ⟨_, hb, ⟨_, rfl⟩ | ⟨bs, rest, hd, rfl⟩⟩
    · exact .fault _ (by simp)
    · exact .advance
    · exact .fault _ (by simp)
    · exact .fault _ (by simp)
    · have hd := devIn_eq_bytes.1 hd
      exact .input _ _ _ (by rw [hd.1]; exact range _ _ hb) rfl hd.2
  | out ra rb imm =>
    rcases execOut_next h with ⟨_, rfl⟩ | ⟨_, _, rfl⟩ | ⟨_, _, rfl⟩
    · exact .advance
    · exact .emit _
    · exact .fault _ (by simp)
  | outd | outb | outh | cl => obtain rfl := complete_next.1 h; exact .emit _
  | outc ra rb imm =>
    rcases execOutc_next h with ⟨_, rfl⟩ | ⟨_, _, rfl⟩
    · exact .fault _ (by simp)
    · exact .emit _
  | add | sub | and | or | xor | ls | rs | addi | subi | andi | ori | xori | lsi | rsi | mul =>
    obtain rfl := complete_next.1 h; exact .reg _ _ rfl rfl
  | div | mod =>
    rcases divide_next h with ⟨_, rfl⟩ | ⟨_, rfl⟩
    · exact .fault _ (by simp)
    · exact .reg _ _ rfl rfl
  | j | jal => obtain rfl := linkAndJump_next.1 h; exact .jump _ _ _ rfl rfl
  | beq | bne | blt | bge =>
    obtain rfl := branchIf_next.1 h
    split
    · exact .branch _ rfl
    · exact .advance
  | lw | lb | lh =>
    rcases loadFrom_next h with ⟨_, rfl⟩ | ⟨_, rfl⟩
    · exact .reg _ _ rfl rfl
    · exact .fault _ (by simp)
  | sw | sb | sh =>
    rcases storeTo_next h with ⟨hb, rfl⟩ | ⟨_, rfl⟩
    · exact .store _ _ (by rw [storedBytes_length]; exact range _ _ hb) rfl
    · exact .fault _ (by simp)

/-- The opcode and the function of an instruction's word, from the tag bits of its row of the opcode table. -/
theorem hasCode_of_tag {i : Instr} {op fn : Nat} (h : Laws.OpcodeBits.Statement i) (ht : Laws.tableTag i = op * 8 + fn)
    (hf : fn < 8) : HasCode i op fn := by
  have hlt := (function (encode i)).isLt
  rw [Laws.OpcodeBits.Statement, Laws.tagOf] at h
  exact ⟨by omega, by omega⟩

/-! ### The step -/

/-- A fetch fails only with a memory fault at the pc. -/
theorem fetch_error {f : Fault} (h : fetch s = .error f) : ∃ a n, f = .memoryFault s.pc a n := by
  unfold fetch at h
  split at h
  · cases h
  · injection h with h; exact ⟨_, _, h.symm⟩

/-- The three ways a step answers a next state: it ran the decoded instruction, the word was no instruction, or the fetch
failed; always from `Running`. -/
theorem step_next (h : step s = .next t) : s.run = .running ∧
    ((∃ w i, fetch s = .ok w ∧ decodeWord w = .ok i ∧ exec i s = .next t) ∨
      (∃ w e, fetch s = .ok w ∧ decodeWord w = .error e ∧ t = s.setFaulted (.illegalInstruction s.pc w)) ∨
      ∃ f, fetch s = .error f ∧ t = s.setFaulted f) := by
  unfold step at h
  split at h
  · refine ⟨‹_›, ?_⟩
    unfold cycle at h
    split at h
    · unfold runWord at h
      split at h
      · exact .inl ⟨_, _, ‹_›, ‹_›, h⟩
      · exact .inr (.inl ⟨_, _, ‹_›, ‹_›, raise_next.1 h⟩)
    · exact .inr (.inr ⟨_, ‹_›, raise_next.1 h⟩)
  · cases h
  · cases h

end Sys2Proof.Machine
end

