-- ==== Sys2Proof/Laws/Frames.lean ====
section
/-! SUPPORT. The frames of Safety.lean for the updates with which instructions end. -/

namespace Sys2Proof.Machine

variable {s t : State}

/-- An advance from any state whose pc is that of `s`. -/
theorem advanced_of_pc (h : t.pc = s.pc) : Advanced s t.advance := by simp [Advanced, h]

theorem sameRegs_advance : SameRegs s s.advance := fun r => by simp

theorem aluFrame_advance : AluFrame s s.advance :=
  ⟨advanced_of_pc rfl, ⟨rfl, fun _ => rfl⟩, ⟨rfl, rfl⟩, rfl, rfl⟩

theorem onlyReg_setReg (r : Reg) (v : Word) : OnlyReg r v s (s.setReg r v).advance := by
  intro q; simp [State.reg_setReg]

theorem aluFrame_setReg (r : Reg) (v : Word) : AluFrame s (s.setReg r v).advance :=
  ⟨advanced_of_pc (by simp), ⟨by simp, by simp⟩, ⟨by simp, by simp⟩, by simp, by simp⟩

/-- A register written with the pattern of an integer modulo 2^32. -/
theorem onlyRegInt_of_onlyReg {r : Reg} {v : Word} {n : Int} (h : OnlyReg r v s t) (hv : (v.toNat : Int) = n % 2 ^ 32) :
    OnlyRegInt r n s t := by
  intro q
  rw [h q]
  split
  · rfl
  · split
    · exact hv
    · rfl

theorem onlyCalls_emit (e : Event) : OnlyCalls e s (s.emit e).advance :=
  ⟨fun r => by simp, advanced_of_pc rfl, ⟨rfl, fun _ => rfl⟩, ⟨rfl, rfl⟩, rfl, rfl⟩

end Sys2Proof.Machine
end

