-- ==== Sys2Proof/Laws/Operands.lean ====
section
/-! SUPPORT. What the operand forms and the wide reads are as numbers: sign extension, contraction to a register, sums and
addresses, and the big-endian values of loads and of fetch. -/

namespace Sys2Proof.Machine

/-! ### Sign extension and contraction -/

/-- `extend` of a pattern is its two's-complement reading. -/
theorem extend_toNat {n : Nat} (x : BitVec n) : extend x.toNat n = x.toInt := by
  unfold extend
  rw [BitVec.toInt_eq_msb_cond, BitVec.msb_eq_getLsbD_last]
  rfl

/-- to32(i) is i mod 2^32. -/
theorem to32_toNat (i : Int) : ((to32 i).toNat : Int) = i % 2 ^ 32 := by
  rw [to32, BitVec.toNat_ofInt, Int.toNat_of_nonneg (Int.emod_nonneg _ (by norm_num))]
  norm_num

/-- to32 gives back a value that 32 bits can hold. -/
theorem to32_toInt {i : Int} (h : -2 ^ 31 ≤ i) (h' : i < 2 ^ 31) : (to32 i).toInt = i :=
  BitVec.toInt_ofInt_eq_self (by omega) h h'

/-- A register plus an integer, as a signed value. -/
theorem add_to32 (a : Word) (i : Int) : a + to32 i = to32 (a.toInt + i) := by
  simp [to32, BitVec.ofInt_add]

/-- A register plus an integer, modulo 2^32. -/
theorem add_to32_toNat (a : Word) (i : Int) : ((a + to32 i).toNat : Int) = (a.toNat + i) % 2 ^ 32 := by
  rw [BitVec.toNat_add]
  push_cast
  rw [to32_toNat]
  simp

/-- The word of a 16-bit immediate is to32 of its value. -/
theorem imm16Word_eq (imm : BitVec 16) : imm16Word imm = to32 (imm16 imm) := by
  have hl := BitVec.le_toInt imm
  have hu := BitVec.toInt_lt (x := imm)
  apply BitVec.eq_of_toInt_eq
  rw [imm16Word, BitVec.toInt_signExtend_of_le (by omega), to32_toInt] <;> simp only [imm16] <;> omega

/-! ### Addresses -/

theorem State.memAddr_eq (s : State) (r : Reg) (imm : BitVec 16) :
    s.memAddr r imm = (s.reg r).toInt + extend imm.toNat 16 := by
  rw [extend_toNat]; rfl

theorem State.ioSum_eq (s : State) (r : Reg) (imm : BitVec 21) :
    s.ioSum r imm = to32 ((s.reg r).toInt + imm21 s.cfg.ctlIoImmWidth imm) :=
  add_to32 _ _

/-- The immediate of `IO` is in [-2^20, 2^20) whichever its width. -/
theorem imm21_bounds (w : Config.ImmWidth) (imm : BitVec 21) : -2 ^ 20 ≤ imm21 w imm ∧ imm21 w imm < 2 ^ 20 := by
  cases w with
  | w20 =>
    have hl := BitVec.le_toInt (imm.setWidth 20)
    have hu := BitVec.toInt_lt (x := imm.setWidth 20)
    simp only [imm21]; omega
  | w21 =>
    have hl := BitVec.le_toInt imm
    have hu := BitVec.toInt_lt (x := imm)
    simp only [imm21]; omega

/-! ### Big-endian values -/

theorem Memory.load_word_toNat (m : Memory) (a : Nat) : (m.load a .word).toNat =
    (m.readByte a).toNat * 2 ^ 24 + (m.readByte (a + 1)).toNat * 2 ^ 16 + (m.readByte (a + 2)).toNat * 2 ^ 8 +
      (m.readByte (a + 3)).toNat := by
  have h0 := (m.readByte a).isLt
  have h1 := (m.readByte (a + 1)).isLt
  have h2 := (m.readByte (a + 2)).isLt
  have h3 := (m.readByte (a + 3)).isLt
  simp only [Memory.load, wordOfBytes, BitVec.toNat_ofNat]; omega

theorem Memory.load_half_toNat (m : Memory) (a : Nat) :
    (m.load a .half).toNat = (m.readByte a).toNat * 2 ^ 8 + (m.readByte (a + 1)).toNat := by
  have h0 := (m.readByte a).isLt
  have h1 := (m.readByte (a + 1)).isLt
  simp only [Memory.load, halfOfBytes, BitVec.toNat_ofNat]; omega

theorem Memory.load_byte_toNat (m : Memory) (a : Nat) : (m.load a .byte).toNat = (m.readByte a).toNat := by
  have h0 := (m.readByte a).isLt
  simp only [Memory.load, BitVec.toNat_setWidth]; omega

/-! ### Fetch -/

/-- A fetch inside memory reads the word at the pc. -/
theorem fetch_of_inBounds {s : State} (h : s.pc.toNat + 4 ≤ s.mem.size) :
    fetch s = .ok (s.mem.load s.pc.toNat .word) :=
  if_pos ⟨by omega, by simp [Width.bytes]; omega⟩

/-- A fetch that is not inside memory faults. -/
theorem fetch_of_outOfBounds {s : State} (h : s.mem.size < s.pc.toNat + 4) :
    fetch s = .error (.memoryFault s.pc s.pc.toNat 4) :=
  if_neg (by simp [Memory.InBounds, Width.bytes]; omega)

/-- The memory at reset has the canonical form. -/
theorem reset_mem_wf : State.reset.mem.wf = true := rfl

/-- Placing a word where the next fetch reads keeps the canonical form. -/
theorem placeAtPc_wf {s : State} (h : s.mem.wf = true) (w : Word) : (placeAtPc w s).mem.wf = true := by
  unfold placeAtPc
  split
  · rename_i hb
    unfold Memory.InBounds at hb
    exact Memory.wf_store h (by omega) w
  · exact h

end Sys2Proof.Machine
end

