-- ==== Sys2Proof/Tests/Slice0.lean ====
section
/-! SUPPORT. Tests by evaluation. Expected results come from spec/95_test_vectors.md (the vector is named), from the spec's own
examples, or by hand from the rule named; and, last, a witness for the hypotheses of every statement that has some. -/

namespace Sys2Proof.Machine.Tests

/-! ### Helpers -/

/-- The parameters of the vectors: `ctlIoImmWidth` 21, the whole shift amount, `modRule` truncated. -/
def vectorCfg : Config.Params := { ctlIoImmWidth := .w21, shiftRule := .wholeAmount, modRule := .truncated }

/-- A running state of 8000 bytes with some registers set, the rest 0, and some bytes placed at an address. -/
def stateAt (pc : Word) (regs : List (Reg × Word)) (a : Nat) (bs : List Byte) : State :=
  regs.foldl (fun s p => s.setReg p.1 p.2)
    { regs := Vector.replicate 31 0
      pc := pc
      mem := Memory.writeBytes { size := 8000, cells := [] } a bs
      run := .running
      input := []
      events := []
      cfg := vectorCfg }

/-- The same with no bytes placed. -/
def regsAt (pc : Word) (regs : List (Reg × Word)) : State := stateAt pc regs 0 []

/-- A view of the state after one step that fetches the word `w`; none if there is no next state. -/
def after {α : Type} (w : Nat) (s : State) (view : State → α) : Option α :=
  match step (s.withFetchWord 32 w) with
  | .next t => some (view t)
  | .fault _ | .refused _ => none

/-- A register and the pc after one step. -/
def regAfter (w : Nat) (s : State) (r : Reg) : Option (Word × Word) := after w s (fun t => (t.reg r, t.pc))

/-- The run state and the pc after one step. -/
def runAfter (w : Nat) (s : State) : Option (RunState × Word) := after w s (fun t => (t.run, t.pc))

/-- The events and the pc after one step. -/
def eventsAfter (w : Nat) (s : State) : Option (List Event × Word) := after w s (fun t => (t.events, t.pc))

/-- Some bytes of memory and the pc after one step. -/
def bytesAfter (w : Nat) (s : State) (a n : Nat) : Option (List Byte × Word) :=
  after w s (fun t => (t.mem.readBytes a n, t.pc))

/-! ### WellFormed: an ill-formed term for each check (30_encoding R62: bits 20-16 of the immediate are rb) -/

theorem test_in_overlap_refused : (Instr.in_ 1 2 0x010000).wellFormed = false := by decide
theorem test_out_overlap_refused : (Instr.out 1 0 0x1FFFFF).wellFormed = false := by decide
theorem test_outd_overlap_refused : (Instr.outd 1 31 0).wellFormed = false := by decide
theorem test_outb_overlap_refused : (Instr.outb 0 1 0x00FFFF).wellFormed = false := by decide
theorem test_outh_overlap_refused : (Instr.outh 0 16 0x0F0000).wellFormed = false := by decide
theorem test_outc_overlap_refused : (Instr.outc 0 3 0x020041).wellFormed = false := by decide
theorem test_overlap_accepted : (Instr.out 1 2 0x020000).wellFormed = true := by decide

/-! ### Decoding: words written bit by bit from 30_encoding R61, R68 and R69 -/

theorem test_decode_ctl :
    decodeTableWord 32 0b000_000_00000_00000_0000000000000000 = some .halt ∧
    decodeTableWord 32 0b000_001_00000_00000_0000000000000000 = some .nop ∧
    decodeTableWord 32 0b000_010_00001_10000_0000000000000011 = some (.sleep 1 0x100003) := by decide

theorem test_decode_io :
    decodeTableWord 32 0b001_000_00001_00010_0000000000000101 = some (.in_ 1 2 0x020005) ∧
    decodeTableWord 32 0b001_001_00001_11111_1111111111111111 = some (.out 1 31 0x1FFFFF) ∧
    decodeTableWord 32 0b001_010_00011_00000_0000000000000000 = some (.outd 3 0 0) ∧
    decodeTableWord 32 0b001_011_00000_00000_0000000000000101 = some (.outb 0 0 5) ∧
    decodeTableWord 32 0b001_100_00001_00000_0000000000000000 = some (.outh 1 0 0) ∧
    decodeTableWord 32 0b001_101_00000_00000_0000000001000001 = some (.outc 0 0 65) ∧
    decodeTableWord 32 0b001_110_00000_00000_0000000000000000 = some .cl := by decide

theorem test_decode_alur :
    decodeTableWord 32 0b010_000_00011_00001_00010_00000000000 = some (.add 3 1 2) ∧
    decodeTableWord 32 0b010_001_11111_00001_00010_00000000000 = some (.sub 31 1 2) ∧
    decodeTableWord 32 0b010_010_00011_11111_00010_00000000000 = some (.and 3 31 2) ∧
    decodeTableWord 32 0b010_011_00011_00001_11111_00000000000 = some (.or 3 1 31) ∧
    decodeTableWord 32 0b010_100_10000_01000_00100_00000000000 = some (.xor 16 8 4) ∧
    decodeTableWord 32 0b010_101_00011_00001_00010_00000000000 = some (.ls 3 1 2) ∧
    decodeTableWord 32 0b010_110_00011_00001_00010_11111111111 = some (.rs 3 1 2) := by decide

theorem test_decode_alui :
    decodeTableWord 32 0b011_000_00001_00000_0000000000000011 = some (.addi 1 0 3) ∧
    decodeTableWord 32 0b011_001_00010_00001_1000000000000000 = some (.subi 2 1 0x8000) ∧
    decodeTableWord 32 0b011_010_00010_00001_0000000011111111 = some (.andi 2 1 0xFF) ∧
    decodeTableWord 32 0b011_011_00010_00000_0111111111111111 = some (.ori 2 0 0x7FFF) ∧
    decodeTableWord 32 0b011_100_00010_00001_1111111111111111 = some (.xori 2 1 0xFFFF) ∧
    decodeTableWord 32 0b011_101_00001_00001_0000000000010000 = some (.lsi 1 1 16) ∧
    decodeTableWord 32 0b011_110_00010_00001_0000000000011111 = some (.rsi 2 1 31) := by decide

theorem test_decode_md :
    decodeTableWord 32 0b100_000_00011_00001_00010_00000000000 = some (.mul 3 1 2) ∧
    decodeTableWord 32 0b100_001_00011_00001_00010_00000000000 = some (.div 3 1 2) ∧
    decodeTableWord 32 0b100_010_00011_00001_00010_00000000000 = some (.mod 3 1 2) := by decide

theorem test_decode_jump :
    decodeTableWord 32 0b101_000_00101_00110_0000000000000000 = some (.j 5 6 0) ∧
    decodeTableWord 32 0b101_001_11111_00000_0000000001100100 = some (.jal 31 0 100) := by decide

theorem test_decode_branch :
    decodeTableWord 32 0b110_000_00001_00010_0000000000101000 = some (.beq 1 2 40) ∧
    decodeTableWord 32 0b110_001_00001_00000_0000000000000000 = some (.bne 1 0 0) ∧
    decodeTableWord 32 0b110_010_00001_00010_0000000000010100 = some (.blt 1 2 20) ∧
    decodeTableWord 32 0b110_011_00001_00010_1111111111111100 = some (.bge 1 2 0xFFFC) := by decide

theorem test_decode_mem :
    decodeTableWord 32 0b111_000_00001_00000_0000000001100100 = some (.lw 1 0 100) ∧
    decodeTableWord 32 0b111_001_00001_00000_0000000001100100 = some (.lb 1 0 100) ∧
    decodeTableWord 32 0b111_010_00001_00000_0000000001100101 = some (.lh 1 0 101) ∧
    decodeTableWord 32 0b111_011_00000_00001_0000000011001000 = some (.sw 0 1 200) ∧
    decodeTableWord 32 0b111_100_00000_00001_0000000011001000 = some (.sb 0 1 200) ∧
    decodeTableWord 32 0b111_101_00000_00001_0000000011001000 = some (.sh 0 1 200) := by decide

/-- 30_encoding R70: the first illegal function of each category, refused by name. -/
theorem test_illegal_pairs :
    decodeWord 0x0C000000 = .error (.illegalPair 0 3) ∧ decodeWord 0x3C000000 = .error (.illegalPair 1 7) ∧
    decodeWord 0x5C000000 = .error (.illegalPair 2 7) ∧ decodeWord 0x7C000000 = .error (.illegalPair 3 7) ∧
    decodeWord 0x8C000000 = .error (.illegalPair 4 3) ∧ decodeWord 0xA8000000 = .error (.illegalPair 5 2) ∧
    decodeWord 0xD0000000 = .error (.illegalPair 6 4) ∧ decodeWord 0xF8000000 = .error (.illegalPair 7 6) := by
  decide

theorem test_decode_too_few_bytes : decodeBytes [0x60, 0x20, 0x00] = .error .truncated := by decide

/-- 95 W1: the words of the source's program. -/
theorem test_encode_program : encode (.addi 1 0 3) = 0x60200003 ∧ encode (.add 3 1 2) = 0x40611000 ∧
    encode (.outd 3 0 0) = 0x28600000 ∧ encode .halt = 0 ∧ encode (.sb 0 1 200) = 0xF00100C8 := by decide

/-! ### One step, CTL (95 V-CTL) -/

theorem test_halt : runAfter 0x00000000 (regsAt 16 []) = some (.halted, 20) := by decide
theorem test_halt_ignores_bits : runAfter 0x0000FFFF (regsAt 0 []) = some (.halted, 4) := by decide
theorem test_nop : after 0x04000000 (regsAt 0 [(1, 7)]) (fun t => (t.run, t.pc, t.reg 1, t.events)) =
    some (.running, 4, 7, []) := by decide
theorem test_sleep : eventsAfter 0x08200003 (regsAt 0 [(1, 2)]) = some ([.delay 5], 4) := by decide
theorem test_sleep_negative : runAfter 0x08200000 (regsAt 0 [(1, 0xFFFFFFFF)]) =
    some (.faulted (.ioArgumentFault 0), 0) := by decide
theorem test_illegal_ctl : runAfter 0x0C000000 (regsAt 0 []) =
    some (.faulted (.illegalInstruction 0 0x0C000000), 0) := by decide

/-! ### One step, IO (95 V-IO) -/

theorem test_in : after 0x20200000 ((regsAt 0 [(1, 100)]).setInput [.byte 0x41, .byte 0x42])
    (fun t => (t.mem.readBytes 99 3, t.input, t.pc)) = some ([0, 0x41, 0], [.byte 0x42], 4) := by decide
theorem test_in_adds_rb : after 0x20220000 ((regsAt 0 [(1, 100), (2, 103)]).setInput [.byte 1])
    (fun t => (t.run, t.input)) = some (.faulted (.memoryFault 0 131172 3), [.byte 1]) := by decide
theorem test_out : eventsAfter 0x24220000 (stateAt 0 [(1, 0xFFFE0064), (2, 103)] 100 [0x68, 0x69, 0x0A]) =
    some ([.out [0x68, 0x69, 0x0A]], 4) := by decide
theorem test_out_bounds : runAfter 0x24220000 (regsAt 0 [(1, 0xFFFE1F3E), (2, 8001)]) =
    some (.faulted (.memoryFault 0 7998 3), 0) := by decide
theorem test_outd : eventsAfter 0x28200005 (regsAt 0 [(1, 0xFFFFFFF0)]) =
    some ([.outNum .dec 0xFFFFFFF5], 4) := by decide
theorem test_outd_minus_one : eventsAfter 0x282FFFFF (regsAt 0 [(1, 10)]) =
    some ([.outNum .dec 1048585], 4) := by decide
theorem test_outb : eventsAfter 0x2C000005 (regsAt 0 []) = some ([.outNum .bin 5], 4) := by decide
theorem test_outh : eventsAfter 0x30200000 (regsAt 0 [(1, 0xFFFFFFFF)]) =
    some ([.outNum .hex 0xFFFFFFFF], 4) := by decide
theorem test_outc : eventsAfter 0x34000041 (regsAt 0 []) = some ([.outChar 65], 4) := by decide
theorem test_outc_no_code_point : runAfter 0x34200000 (regsAt 0 [(1, 0x110000)]) =
    some (.faulted (.ioArgumentFault 0), 0) := by decide
theorem test_cl : eventsAfter 0x38000000 (regsAt 0 []) = some ([.clear], 4) := by decide

/-! ### One step, ALUR (95 V-ALUR) -/

theorem test_add_wraps : regAfter 0x40611000 (regsAt 0 [(1, 0xFFFFFFFF), (2, 1), (3, 9)]) 3 = some (0, 4) := by decide
theorem test_add_to_r0 : regAfter 0x40011000 (regsAt 0 [(1, 3), (2, 4)]) 0 = some (0, 4) := by decide
theorem test_sub : regAfter 0x44611000 (regsAt 0 [(1, 3), (2, 4)]) 3 = some (0xFFFFFFFF, 4) := by decide
theorem test_and : regAfter 0x48611000 (regsAt 0 [(1, 0xF0F0F0F0), (2, 0xFF00FF00)]) 3 = some (0xF000F000, 4) := by
  decide
theorem test_or : regAfter 0x4C611000 (regsAt 0 [(1, 0xF0F0F0F0), (2, 0x0F000000)]) 3 = some (0xFFF0F0F0, 4) := by
  decide
theorem test_xor : regAfter 0x50611000 (regsAt 0 [(1, 0xF0F0F0F0), (2, 0xFF00FF00)]) 3 = some (0x0FF00FF0, 4) := by
  decide
theorem test_ls : regAfter 0x54611000 (regsAt 0 [(1, 0x80000001), (2, 1)]) 3 = some (2, 4) := by decide
theorem test_ls_by_32 : regAfter 0x54611000 (regsAt 0 [(1, 1), (2, 32)]) 3 = some (0, 4) := by decide
theorem test_rs : regAfter 0x58611000 (regsAt 0 [(1, 0xFFFFFFF0), (2, 4)]) 3 = some (0x0FFFFFFF, 4) := by decide
theorem test_rs_by_33 : regAfter 0x58611000 (regsAt 0 [(1, 0xFFFFFFFF), (2, 33)]) 3 = some (0, 4) := by decide

/-! ### One step, ALUI (95 V-ALUI) -/

theorem test_addi_negative : regAfter 0x6020FFFF (regsAt 0 []) 1 = some (0xFFFFFFFF, 4) := by decide
theorem test_subi_least : regAfter 0x64418000 (regsAt 0 [(1, 0)]) 2 = some (0x8000, 4) := by decide
theorem test_andi_extends : regAfter 0x68418000 (regsAt 0 [(1, 0x12345678)]) 2 = some (0x12340000, 4) := by decide
theorem test_ori_extends : regAfter 0x6C40FFFF (regsAt 0 []) 2 = some (0xFFFFFFFF, 4) := by decide
theorem test_xori : regAfter 0x7041FFFF (regsAt 0 [(1, 0x12345678)]) 2 = some (0xEDCBA987, 4) := by decide
theorem test_lsi_same_register : regAfter 0x74210010 (regsAt 0 [(1, 0xFFFFFFFE)]) 1 = some (0xFFFE0000, 4) := by
  decide
theorem test_lsi_negative : regAfter 0x7421FFFF (regsAt 0 [(1, 1)]) 1 = some (0, 4) := by decide
theorem test_rsi : regAfter 0x7841001F (regsAt 0 [(1, 0x80000000)]) 2 = some (1, 4) := by decide
theorem test_rsi_by_32 : regAfter 0x78410020 (regsAt 0 [(1, 0x80000000)]) 2 = some (0, 4) := by decide

/-! ### One step, MD (95 V-MD) -/

theorem test_mul : regAfter 0x80611000 (regsAt 0 [(1, 6), (2, 0xFFFFFFF9)]) 3 = some (0xFFFFFFD6, 4) := by decide
theorem test_mul_low_half : regAfter 0x80611000 (regsAt 0 [(1, 0x10000), (2, 0x10000), (3, 1)]) 3 = some (0, 4) := by
  decide
theorem test_div_truncates : regAfter 0x84611000 (regsAt 0 [(1, 0xFFFFFFF9), (2, 2)]) 3 = some (0xFFFFFFFD, 4) := by
  decide
theorem test_div_overflow : regAfter 0x84611000 (regsAt 0 [(1, 0x80000000), (2, 0xFFFFFFFF)]) 3 =
    some (0x80000000, 4) := by decide
theorem test_mod_truncated : regAfter 0x88611000 (regsAt 0 [(1, 0xFFFFFFF9), (2, 3)]) 3 = some (0xFFFFFFFF, 4) := by
  decide
theorem test_mod_floored :
    regAfter 0x88611000 { regsAt 0 [(1, 0xFFFFFFF9), (2, 3)] with cfg := { vectorCfg with modRule := .floored } } 3 =
      some (2, 4) := by decide
theorem test_divide_by_zero : runAfter 0x84611000 (regsAt 0 [(1, 5)]) = some (.faulted (.divideByZero 0), 0) ∧
    runAfter 0x88610000 (regsAt 0 [(1, 1)]) = some (.faulted (.divideByZero 0), 0) := by decide

/-! ### One step, JUMP and BRANCH (95 V-JUMP, V-BRANCH) -/

theorem test_j_links : regAfter 0xA0A60000 (regsAt 8 [(6, 200)]) 5 = some (8, 200) := by decide
theorem test_j_no_link : regAfter 0xA01F0004 (regsAt 40 [(31, 8)]) 31 = some (8, 12) := by decide
theorem test_jal : regAfter 0xA7E00064 (regsAt 8 []) 31 = some (8, 100) := by decide
theorem test_jal_base_is_link : regAfter 0xA4E7000C (regsAt 20 [(7, 1000)]) 7 = some (20, 32) := by decide
theorem test_beq : runAfter 0xC0220028 (regsAt 8 [(1, 5), (2, 5)]) = some (.running, 40) ∧
    runAfter 0xC0220028 (regsAt 8 [(1, 5), (2, 6)]) = some (.running, 12) := by decide
theorem test_beq_negative_target : runAfter 0xC000FFFC (regsAt 0 []) = some (.running, 0xFFFFFFFC) := by decide
theorem test_bne : runAfter 0xC4200000 (regsAt 8 [(1, 3)]) = some (.running, 0) ∧
    runAfter 0xC4210000 (regsAt 8 [(1, 3)]) = some (.running, 12) := by decide
theorem test_blt : runAfter 0xC8220014 (regsAt 0 [(1, 0xFFFFFFFF)]) = some (.running, 20) ∧
    runAfter 0xC8220014 (regsAt 0 [(2, 0xFFFFFFFF)]) = some (.running, 4) := by decide
theorem test_bge : runAfter 0xCC220014 (regsAt 0 [(1, 0x7FFFFFFF), (2, 0x80000000)]) = some (.running, 20) ∧
    runAfter 0xCC200014 (regsAt 0 [(1, 0x80000000)]) = some (.running, 4) := by decide

/-! ### One step, MEM (95 W7, W8, V-MEM) -/

theorem test_lw : regAfter 0xE022FFFC (stateAt 0 [(2, 104)] 100 [0x12, 0x34, 0x56, 0x78]) 1 =
    some (0x12345678, 4) := by decide
theorem test_lw_bounds : after 0xE0201F3D (regsAt 0 [(1, 77)]) (fun t => (t.run, t.pc, t.reg 1)) =
    some (.faulted (.memoryFault 0 7997 4), 0, 77) := by decide
theorem test_lb_zero_extends : regAfter 0xE4200064 (stateAt 0 [] 100 [0xFF]) 1 = some (0xFF, 4) := by decide
theorem test_lh_odd : regAfter 0xE8200065 (stateAt 0 [] 101 [0xBE, 0xEF]) 1 = some (0xBEEF, 4) := by decide
theorem test_sw : bytesAfter 0xEC0100C8 (regsAt 0 [(1, 0xCAFEBABE)]) 199 6 =
    some ([0, 0xCA, 0xFE, 0xBA, 0xBE, 0], 4) := by decide
theorem test_sw_no_partial_write : bytesAfter 0xEC011F3E (regsAt 0 [(1, 0xCAFEBABE)]) 7998 2 = some ([0, 0], 0) := by
  decide
theorem test_sb : bytesAfter 0xF00100C8 (regsAt 0 [(1, 0x12345678)]) 199 3 = some ([0, 0x78, 0], 4) := by decide
theorem test_sh : bytesAfter 0xF40100C8 (regsAt 0 [(1, 0x12345678)]) 199 4 = some ([0, 0x56, 0x78, 0], 4) := by decide

/-! ### The step, the load and the devices -/

/-- 40_cycle R101: a fetch at the end of memory. -/
theorem test_fetch_fault : runAfter 0 (regsAt 7997 []) = some (.faulted (.memoryFault 7997 7997 4), 7997) := by decide

/-- 70_reset R260, 92 D15: an image longer than memory is refused, one as long is loaded. -/
theorem test_load_size :
    (State.load vectorCfg 4 (Vector.replicate 31 0) [] [1, 2, 3, 4, 5]).isNone = true ∧
    (State.load vectorCfg 4 (Vector.replicate 31 0) [] [1, 2, 3, 4]).map (fun s => s.mem.readBytes 0 5) =
      some [1, 2, 3, 4, 0] := by decide

/-- 42_io R137, 41_ctl R122: a clear empties the display, and delays add up. -/
theorem test_devices :
    ({ regsAt 0 [] with events := [.outChar 65, .delay 2, .clear, .outChar 66, .delay 3] } : State).display =
      [.outChar 66] ∧
    ({ regsAt 0 [] with events := [.outChar 65, .delay 2, .clear, .outChar 66, .delay 3] } : State).elapsed = 5 := by
  decide

/-- 95 W1: the event `OutNum(dec, 7)` is printed `7`. -/
theorem test_printed : after 0x28600000 (regsAt 0 [(3, 7)]) State.printed = some [0x37] := by decide

/-- 95 W1 and V-IO: `OUTD` of 7 and of -11. -/
theorem test_decimal_text : decimalText 7 = "7".toList ∧ decimalText 0xFFFFFFF5 = "-11".toList := by decide

/-- 60_exceptions R231: the codes. -/
theorem test_fault_codes : Fault.code (.memoryFault 0 0 1) = 1 ∧ Fault.code (.inputFormatError 0) = 2 ∧
    Fault.code (.illegalInstruction 0 0) = 3 ∧ Fault.code (.divideByZero 0) = 4 ∧
    Fault.code (.ioArgumentFault 0) = 5 := by decide

/-! ### The assembler -/

/-- 95 W1: the source's program. -/
theorem test_assemble_program :
    Asm.assemble "addi r1 r0 3\naddi r2 r0 4\nadd r3 r1 r2\noutd r3 r0 0\nhalt".toList =
      .ok [0x60, 0x20, 0x00, 0x03, 0x60, 0x40, 0x00, 0x04, 0x40, 0x61, 0x10, 0x00, 0x28, 0x60, 0x00, 0x00,
        0x00, 0x00, 0x00, 0x00] := by decide

/-- 30_encoding R80, R88, R89: a comment, a label before a statement, a string, a label at the end. -/
theorem test_assemble_labels :
    Asm.assemble "# data\n\nbeq r0 r0 end\nmsg:\n\"hi!\"\nj r0 r0 msg\nend:\n".toList =
      .ok [0xC0, 0x00, 0x00, 0x0B, 0x68, 0x69, 0x21, 0xA0, 0x00, 0x00, 0x04] := by decide

/-- 30_encoding R87: the contracted immediate merges with rb. -/
theorem test_assemble_overlap : Asm.assemble "out r1 r2 -1".toList = .ok [0x24, 0x2F, 0xFF, 0xFF] := by decide

/-- 30_encoding R91, R92: raw data, and a statement that matches no pattern. -/
theorem test_assemble_data : Asm.assemble "0x10\n'A'\n-1".toList =
      .ok [0x00, 0x00, 0x00, 0x10, 0x41, 0xFF, 0xFF, 0xFF, 0xFF] ∧
    Asm.assemble "halt\nadd r1 r2".toList =
      .error (.assemblySyntaxError ["add".toList, "r1".toList, "r2".toList]) := by decide

/-- Log 13: the model's choices about the backslash and about quotes between quotes. -/
theorem test_backslash_choices : Asm.charLiteral "'\\'".toList = none ∧ Asm.charLiteral "'''".toList = some 39 ∧
    Asm.charLiteral "'\"'".toList = some 34 ∧ Asm.tokens "a\\ b c".toList = ["a\\ b".toList, "c".toList] ∧
    Asm.tokens "'\\' x".toList = ["'\\' x".toList] := by decide

/-- 95 W2: contract and extend. -/
theorem test_contract_extend : contract (-5) 20 = 0xFFFFB ∧ extend 0xFFFFB 20 = -5 ∧
    contract (-1048576) 21 = 0x100000 ∧ extend 0x100000 21 = -1048576 ∧
    contract 40000 16 = 0x9C40 ∧ extend 0x9C40 16 = -25536 := by decide

/-! ### Witnesses: the hypotheses of each statement that has some, and of each of its clauses, met together -/

/-- The outcome of a step is a next state in which a check holds. -/
def nextIs (o : Host.Outcome State Fault Refusal) (check : State → Bool) : Bool :=
  match o with
  | .next t => check t
  | .fault _ | .refused _ => false

/-- A step or an execution that answers `true` under `nextIs` answers a next state. -/
theorem next_of_nextIs {o : Host.Outcome State Fault Refusal} {check : State → Bool} (h : nextIs o check = true) :
    ∃ t, o = .next t ∧ check t = true := by
  cases o with
  | next t => exact ⟨t, rfl, h⟩
  | fault f => cases h
  | refused r => cases h

theorem witness_reset_fetches : after 0x60200003 State.reset (fun t => (t.reg 1, t.pc)) = some (3, 4) := by decide

/-- LoadPlacesTheImageAndZeroFills: an image one byte too long, and one of exactly `memSize` bytes. -/
theorem witness_load : 4 < ([1, 2, 3, 4, 5] : List Byte).length ∧ ([1, 2, 3, 4] : List Byte).length ≤ 4 := by decide

/-- StepRunsTheDecodedInstruction: the last fetch that is inside memory. -/
theorem witness_step_runs : (stateAt 7996 [] 7996 [0x60, 0x20, 0, 3]).run = .running ∧
    (7996 : Word).toNat + 4 ≤ (stateAt 7996 [] 7996 [0x60, 0x20, 0, 3]).mem.size ∧
    (0x60200003 : Word).toNat = wordAtPc (stateAt 7996 [] 7996 [0x60, 0x20, 0, 3]) ∧
    decodeWord 0x60200003 = .ok (.addi 1 0 3) := by decide

/-- FetchReadsTheWordAtThePcOrFaults: the last fetch that is inside memory and the first that is not. -/
theorem witness_fetch : (regsAt 7996 []).pc.toNat + 4 ≤ (regsAt 7996 []).mem.size ∧
    (regsAt 7997 []).mem.size < (regsAt 7997 []).pc.toNat + 4 ∧ (regsAt 7997 []).run = .running ∧
    (regsAt 7997 []).mem.size ≤ 2 ^ 30 := by decide

/-- IllegalPairsRaiseIllegalInstruction, the clause about the step. -/
theorem witness_illegal_pair : (stateAt 0 [] 0 [0xF8, 0, 0, 0]).run = .running ∧
    (stateAt 0 [] 0 [0xF8, 0, 0, 0]).pc.toNat + 4 ≤ (stateAt 0 [] 0 [0xF8, 0, 0, 0]).mem.size ∧
    (0xF8000000 : Word).toNat = wordAtPc (stateAt 0 [] 0 [0xF8, 0, 0, 0]) ∧
    illegalPair (opcode 0xF8000000).toNat (function 0xF8000000).toNat :=
  ⟨by decide, by decide, by decide, by unfold illegalPair; decide⟩

/-- RunStateTransitions: its four cases. -/
theorem witness_run_states : (regsAt 0 []).setHalted.run = .halted ∧
    ((regsAt 0 []).setFaulted (.divideByZero 0)).run = .faulted (.divideByZero 0) ∧
    nextIs (step (regsAt 0 [])) (fun t => t.run == .halted) = true ∧
    nextIs (step (regsAt 7997 [])) (fun t => t.run == .faulted (.memoryFault 7997 7997 4)) = true := by decide

/-- FaultsArePrecise: a store that faults. -/
theorem witness_fault : nextIs (step (stateAt 0 [(1, 1)] 0 [0xEC, 0x01, 0x1F, 0x3E]))
    (fun t => t.run == .faulted (.memoryFault 0 7998 4)) = true := by decide

/-- OnlyInCanBlock: a running state, and one whose step blocks. -/
theorem witness_block : (stateAt 0 [(1, 100)] 0 [0x20, 0x20, 0, 0]).run = .running ∧
    step (stateAt 0 [(1, 100)] 0 [0x20, 0x20, 0, 0]) = .refused .blockedOnInput := ⟨by decide, by rfl⟩

/-- StepKeepsTheStateWellFormed, StepKeepsParametersAndMemorySize, StepAppendsEventsAndConsumesInput: an `IN` that runs. -/
theorem witness_step_next :
    (State.setInput (stateAt 0 [(1, 7999)] 0 [0x20, 0x20, 0, 0]) [.byte 1]).wf = true ∧
    nextIs (step (State.setInput (stateAt 0 [(1, 7999)] 0 [0x20, 0x20, 0, 0]) [.byte 1]))
      (fun t => t.wf && t.input == []) = true := by decide

/-- EarlierEventsDoNotInfluenceAStep: a next state, a fault and a refusal. -/
theorem witness_earlier_events : nextIs (step (regsAt 0 [])) (fun _ => true) = true ∧
    step ((regsAt 0 []).setFaulted (.divideByZero 0)) = .fault (.divideByZero 0) ∧
    step (regsAt 0 []).setHalted = .refused .halted := ⟨by decide, by rfl, by rfl⟩

/-- OnlyTheDestinationRegisterChanges: an instruction with a destination, with none, and with x[0] as destination. -/
theorem witness_destination :
    nextIs (exec (.add 3 1 2) (regsAt 0 [(1, 1), (2, 2)])) (fun t => t.reg 3 == 3) = true ∧
    destination (.add 3 1 2) ≠ some 1 ∧
    nextIs (exec (.sw 0 1 0) (regsAt 0 [(1, 1)])) (fun _ => true) = true ∧ destination (.sw 0 1 0) = none ∧
    nextIs (exec (.jal 0 1 0) (regsAt 0 [(1, 1)])) (fun _ => true) = true ∧ destination (.jal 0 1 0) = some 0 := by
  decide

/-- OnlyStoresAndInWriteMemory. -/
theorem witness_no_store : nextIs (exec (.out 1 2 0) (stateAt 0 [(1, 4), (2, 6)] 4 [1, 2])) (fun _ => true) = true ∧
    mayWriteMemory (.out 1 2 0) = false := by decide

/-- PcAdvancesUnlessJumpOrBranch: at the highest pc, where the advance wraps. -/
theorem witness_advance : (regsAt 0xFFFFFFFC []).run = .running ∧
    nextIs (exec .halt (regsAt 0xFFFFFFFC [])) (fun t => t.run == .halted && t.pc == 0) = true ∧
    maySetPc .halt = false := by decide

/-- DecodeOfEncodeIsTheInstruction, UnreadBitsAreIgnored. -/
theorem witness_encoding : (Instr.outc 31 31 0x1FFFFF).wellFormed = true ∧
    decodeWord 0x406117FF = .ok (.add 3 1 2) ∧
    (0x40611000 : Word) &&& readMask (.add 3 1 2) = 0x406117FF &&& readMask (.add 3 1 2) := by decide

/-- IoImmediateContainsRb: rb = 0 with the greatest low half, and the two sides of rb = 16. -/
theorem witness_rb : fieldB 0x2420FFFF = 0 ∧ (fieldB 0x242FFFFF).val < 16 ∧ ¬ (fieldB 0x24300000).val < 16 := by decide

/-- ExtendOfContractIsTheValue: the two ends of the range, and the least width. -/
theorem witness_contract : (0 < 16 ∧ (-(2 ^ (16 - 1)) : Int) ≤ -32768 ∧ (-32768 : Int) < 2 ^ (16 - 1)) ∧
    (-(2 ^ (16 - 1)) : Int) ≤ 32767 ∧ (32767 : Int) < 2 ^ (16 - 1) ∧ (-(2 ^ (1 - 1)) : Int) ≤ -1 := by decide

/-- A string of three bytes and a label, to stand before the label `a`. -/
def itemsBefore : List Asm.Item := [.statement ["\"hi!\"".toList], .label "b".toList]

/-- A jump to the label `a`, to stand after it. -/
def itemsAfter : List Asm.Item := [.statement ["j".toList, "r0".toList, "r0".toList, "a".toList]]

/-- LabelsResolveToTheBytesBefore: a label between the two, and one with no statement after it. -/
theorem witness_labels : Asm.Item.label "a".toList ∉ itemsBefore ∧
    (∀ l ∈ Asm.labelsFrom 0 (itemsBefore ++ .label "a".toList :: itemsAfter), isPlainName l.1 = true) ∧
    Asm.emitAll (Asm.labelsFrom 0 (itemsBefore ++ .label "a".toList :: itemsAfter))
      (itemsBefore ++ .label "a".toList :: itemsAfter) = .ok [0x68, 0x69, 0x21, 0xA0, 0, 0, 3] ∧
    (∀ l ∈ Asm.labelsFrom 0 (itemsBefore ++ .label "a".toList :: []), isPlainName l.1 = true) ∧
    Asm.emitAll (Asm.labelsFrom 0 (itemsBefore ++ .label "a".toList :: [])) (itemsBefore ++ .label "a".toList :: []) =
      .ok [0x68, 0x69, 0x21] := by decide

/-- EmittedSizeIsTheNumberOfBytes: each kind of statement is emitted. -/
theorem witness_emit : Asm.emit ["halt".toList] = .ok [0, 0, 0, 0] ∧ Asm.emit ["7".toList] = .ok [0, 0, 0, 7] ∧
    Asm.emit ["'A'".toList] = .ok [0x41] ∧ Asm.emit ["\"\"".toList] = .ok [] := by decide

/-- PackingAgreesWithTheEncoder, its third clause, and the immediates of StatementsAssembleToTheirEncoding. -/
theorem witness_assembler : (0 : Int) ≤ 65535 ∧ (65535 : Int) < 65536 ∧ (1048575 : Int) < 2 ^ 20 ∧
    ("addi", Instr.addi) ∈ immediateForms ∧ ("add", Instr.add) ∈ registerForms ∧ ("in", Instr.in_) ∈ ioForms ∧
    ("cl", Instr.cl) ∈ bareForms ∧ Asm.immediateOperand "-1".toList = some (-1) ∧
    Asm.immediateOperand "0xFFFF".toList = some 65535 ∧ Asm.immediateOperand "'A'".toList = some 65 :=
  ⟨by decide, by decide, by decide, by simp [immediateForms], by simp [registerForms], by simp [ioForms],
    by simp [bareForms], by decide, by decide, by decide⟩

/-- SleepDelaysOrFaults: d = 0, and d = -1. -/
theorem witness_sleep :
    (BitVec.ofInt 32 (((regsAt 0 [(1, 0xFFFFFFFF)]).reg 1).toInt + imm21 .w21 1)).toInt = 0 ∧
    (BitVec.ofInt 32 (((regsAt 0 [(1, 0xFFFFFFFF)]).reg 1).toInt + imm21 .w21 0)).toInt = -1 := by decide

/-- InWritesTheInputBytes: one byte into the last byte of memory, and two bytes with rb = 2. -/
theorem witness_in :
    (State.setInput (regsAt 0 [(1, 7999)]) [.byte 9]).mem.wf = true ∧ ([9] : List Byte) ≠ [] ∧
    (State.setInput (regsAt 0 [(1, 7999)]) [.byte 9]).reg 0 = 0 ∧
    (State.setInput (regsAt 0 [(1, 7999)]) [.byte 9]).ioAddr 1 0 = 7999 ∧
    (State.setInput (regsAt 0 [(1, 7999)]) [.byte 9]).input = ([9] : List Byte).map .byte ++ [] ∧
    inCount ((regsAt 0 [(1, 0xFFFE0064), (2, 0xFFFE0066)]).reg 1) ((regsAt 0 [(1, 0xFFFE0064), (2, 0xFFFE0066)]).reg 2) = 2 ∧
    (regsAt 0 [(1, 0xFFFE0064), (2, 0xFFFE0066)]).ioAddr 1 0x020000 = 100 := by decide

/-- InChecksBeforeItReads: n = -1, n = 0, and n = 1 just outside memory, with an error next, and with no input. -/
theorem witness_in_checks :
    ((regsAt 0 [(1, 100), (2, 99)]).reg 2).toInt - ((regsAt 0 [(1, 100), (2, 99)]).reg 1).toInt = -1 ∧
    ((regsAt 0 [(1, 100), (2, 100)]).reg 2).toInt - ((regsAt 0 [(1, 100), (2, 100)]).reg 1).toInt = 0 ∧
    ((regsAt 0 [(1, 8000)]).reg 0 = 0 ∧ ¬ ((regsAt 0 [(1, 8000)]).ioAddr 1 0 + 1 ≤ (regsAt 0 [(1, 8000)]).mem.size)) ∧
    ((regsAt 0 [(1, 7999)]).ioAddr 1 0 + 1 ≤ (regsAt 0 [(1, 7999)]).mem.size ∧
      (State.setInput (regsAt 0 [(1, 7999)]) [.inputError]).input = ([] : List Byte).map .byte ++ .inputError :: [] ∧
      (regsAt 0 [(1, 7999)]).input = ([] : List Byte).map .byte) := by decide

/-- OutWritesTheByteRange: an empty range, one that ends at the end of memory, and one that passes it. -/
theorem witness_out :
    ((regsAt 0 [(1, 100)]).reg 0).toInt ≤ (regsAt 0 [(1, 100)]).ioAddr 1 0 ∧
    (regsAt 0 [(1, 0xFFFE1F3E), (2, 8000)]).ioAddr 1 0x020000 = 7998 ∧
    (regsAt 0 [(1, 0xFFFE1F3E), (2, 8000)]).ioAddr 1 0x020000 < ((regsAt 0 [(1, 0xFFFE1F3E), (2, 8000)]).reg 2).toInt ∧
    ((regsAt 0 [(1, 0xFFFE1F3E), (2, 8000)]).reg 2).toInt ≤ (regsAt 0 []).mem.size ∧
    ¬ ((regsAt 0 [(1, 0xFFFE1F3E), (2, 8001)]).reg 2).toInt ≤ (regsAt 0 []).mem.size := by decide

/-- OutcWritesTheCodePointOrFaults: -1, 0, the greatest code point and the value after it. -/
theorem witness_outc :
    (BitVec.ofInt 32 (((regsAt 0 [(1, 0xFFFFFFFF)]).reg 1).toInt + imm21 .w21 0)).toInt = -1 ∧
    (BitVec.ofInt 32 (((regsAt 0 [(1, 0xFFFFFFFF)]).reg 1).toInt + imm21 .w21 1)).toInt = 0 ∧
    (BitVec.ofInt 32 (((regsAt 0 [(1, 0x10FFFF)]).reg 1).toInt + imm21 .w21 0)).toInt = 0x10FFFF ∧
    (BitVec.ofInt 32 (((regsAt 0 [(1, 0x10FFFF)]).reg 1).toInt + imm21 .w21 1)).toInt = 0x110000 := by decide

/-- DisplayIsWhatWasWrittenSinceTheLastClear: both clauses. -/
theorem witness_display : Event.clear ∉ [Event.outChar 66, .delay 3] ∧
    ((regsAt 0 []).emit (.outChar 66)).events = [.outChar 66] ∧
    ((((regsAt 0 []).emit (.outChar 65)).emit .clear).emit (.outChar 66)).events =
      [.outChar 65] ++ .clear :: [.outChar 66] := by decide

/-- OutdPrintsTheSignedDecimal: 7, and the least value. -/
theorem witness_outd :
    7 = (BitVec.ofInt 32 (((regsAt 0 [(3, 7)]).reg 3).toInt + imm21 vectorCfg.ctlIoImmWidth 0)).toInt ∧
    -2147483648 = (BitVec.ofInt 32 (((regsAt 0 [(3, 0x7FFFFFFF)]).reg 3).toInt +
      imm21 vectorCfg.ctlIoImmWidth 1)).toInt := by decide

/-- RegisterShiftsAreLogical: an amount of 32 by the whole register, and of 31 by its low five bits. -/
theorem witness_register_shifts :
    (vectorCfg.shiftRule = .wholeAmount → 32 = ((regsAt 0 [(2, 32)]).reg 2).toNat) ∧
    (vectorCfg.shiftRule = .lowFiveBits → 32 = ((regsAt 0 [(2, 32)]).reg 2).toNat % 32) ∧
    (Config.ShiftRule.lowFiveBits = .wholeAmount → 31 = ((regsAt 0 [(2, 63)]).reg 2).toNat) ∧
    (Config.ShiftRule.lowFiveBits = .lowFiveBits → 31 = ((regsAt 0 [(2, 63)]).reg 2).toNat % 32) := by decide

/-- ImmediateShiftsAreLogical: the least negative immediate as a whole amount, and -1 by its low five bits. -/
theorem witness_immediate_shifts :
    (vectorCfg.shiftRule = .wholeAmount → ((4294934528 : Nat) : Int) = extend (0x8000 : BitVec 16).toNat 16 % 2 ^ 32) ∧
    (vectorCfg.shiftRule = .lowFiveBits → ((4294934528 : Nat) : Int) = extend (0x8000 : BitVec 16).toNat 16 % 32) ∧
    (Config.ShiftRule.lowFiveBits = .wholeAmount → ((31 : Nat) : Int) = extend (0xFFFF : BitVec 16).toNat 16 % 2 ^ 32) ∧
    (Config.ShiftRule.lowFiveBits = .lowFiveBits → ((31 : Nat) : Int) = extend (0xFFFF : BitVec 16).toNat 16 % 32) := by
  decide

/-- JumpsLinkAndThenReadTheBase: each instruction, with ra = rb and with r0 as the base. -/
theorem witness_jumps : (Instr.j 7 7 12 = .j 7 7 12 ∨ Instr.j 7 7 12 = .jal 7 7 12) ∧
    (Instr.jal 31 0 100 = .j 31 0 100 ∨ Instr.jal 31 0 100 = .jal 31 0 100) := by decide

/-- DivTruncatesTowardZero, ModFollowsModRule: a zero divisor, the divisor -1, and each modRule. -/
theorem witness_divide : (regsAt 0 [(1, 5)]).reg 2 = 0 ∧ (regsAt 0 [(1, 0x80000000), (2, 0xFFFFFFFF)]).reg 2 ≠ 0 ∧
    (regsAt 0 []).cfg.modRule = .truncated ∧
    ({ regsAt 0 [] with cfg := { vectorCfg with modRule := .floored } } : State).cfg.modRule = .floored := by decide

/-- RemainderSizeAndSign: each sign of the dividend and of the divisor, and a zero remainder. -/
theorem witness_remainder : (0xFFFFFFFF : Word) ≠ 0 ∧ (0x80000000 : Word).toInt ≤ 0 ∧ (0x7FFFFFFF : Word).toInt ≥ 0 ∧
    (0xFFFFFFFF : Word).toInt < 0 ∧ 0 < (1 : Word).toInt ∧
    remainder .truncated (0x80000000 : Word) 0xFFFFFFFF = 0 := by decide

/-- A base in r1 and data in r2. -/
def storeState (base : Word) : State := regsAt 0 [(1, base), (2, 0xCAFEBABE)]

/-- LoadsAreBigEndianAndZeroExtended, StoresWriteTheLowBytesBigEndian: the last word, half-word and byte of memory. -/
theorem witness_memory : (storeState 7996).mem.wf = true ∧
    ((storeState 7996).reg 2).toNat = (0xCA : Byte).toNat * 2 ^ 24 + (0xFE : Byte).toNat * 2 ^ 16 +
      (0xBA : Byte).toNat * 2 ^ 8 + (0xBE : Byte).toNat ∧
    (((7996 : Nat) : Int) = (storeState 7996).memAddr 1 0 ∧ 7996 + 4 ≤ (storeState 7996).mem.size) ∧
    (((7998 : Nat) : Int) = (storeState 7996).memAddr 1 2 ∧ 7998 + 2 ≤ (storeState 7996).mem.size) ∧
    (((7999 : Nat) : Int) = (storeState 7996).memAddr 1 3 ∧ 7999 + 1 ≤ (storeState 7996).mem.size) ∧
    ((7996 : Nat) : Int) = ((storeState 7996).reg 1).toInt + extend (0 : BitVec 16).toNat 16 := by decide

/-- LoadsAreBigEndianAndZeroExtended, StoresWriteTheLowBytesBigEndian, the clauses that fault: an address of -1, and for each
width the first one that reaches past memory. -/
theorem witness_out_of_bounds : (¬ (0 ≤ (-1 : Int) ∧ (-1 : Int) + 4 ≤ (regsAt 0 []).mem.size) ∧
      -1 = ((regsAt 0 [(1, 0xFFFFFFFF)]).reg 1).toInt + extend (0 : BitVec 16).toNat 16) ∧
    (¬ (0 ≤ (7997 : Int) ∧ (7997 : Int) + 4 ≤ (regsAt 0 []).mem.size) ∧
      7997 = ((regsAt 0 [(1, 7998)]).reg 1).toInt + extend (0xFFFF : BitVec 16).toNat 16) ∧
    (¬ (0 ≤ (7999 : Int) ∧ (7999 : Int) + 2 ≤ (regsAt 0 []).mem.size) ∧
      7999 = ((regsAt 0 [(1, 8000)]).reg 1).toInt + extend (0xFFFF : BitVec 16).toNat 16) ∧
    (¬ (0 ≤ (8000 : Int) ∧ (8000 : Int) + 1 ≤ (regsAt 0 []).mem.size) ∧
      8000 = ((regsAt 0 [(1, 8001)]).reg 1).toInt + extend (0xFFFF : BitVec 16).toNat 16) := by decide

/-- AddressReadingsAgree: an address below 0, whose pattern is the greatest one. -/
theorem witness_addresses : 0 < 1 ∧ (regsAt 0 []).mem.size ≤ 2 ^ 30 ∧ (regsAt 0 []).memAddr 0 0xFFFF = -1 ∧
    ((0xFFFFFFFF : Word).toNat : Int) = -1 % 2 ^ 32 ∧ (regsAt 0 []).ioAddr 0 0x1FFFFF = -1 := by decide

/-- MixedWidthsViewTheSameBytes: a store to the last word. -/
theorem witness_mixed_widths : (regsAt 0 []).mem.wf = true ∧ 7996 + Width.word.bytes ≤ (regsAt 0 []).mem.size := by decide

/-- StoredCodeIsRunByTheNextStep. -/
theorem witness_stored_code : (regsAt 0 [(1, 0x60200003)]).mem.wf = true ∧ (regsAt 0 [(1, 0x60200003)]).run = .running ∧
    (regsAt 0 [(1, 0x60200003)]).memAddr 0 4 = (regsAt 0 [(1, 0x60200003)]).pc.toNat + 4 ∧
    (regsAt 0 [(1, 0x60200003)]).pc.toNat + 8 ≤ (regsAt 0 [(1, 0x60200003)]).mem.size ∧
    (regsAt 0 [(1, 0x60200003)]).mem.size ≤ Config.maxMemSize ∧
    decodeWord ((regsAt 0 [(1, 0x60200003)]).reg 1) = .ok (.addi 1 0 3) := by decide

end Sys2Proof.Machine.Tests
end

/-! The family 00_scope: the parameters and the size of memory are fixed (R6), and contraction is inverted by extension
(R10). -/

namespace Sys2Proof.Machine

/-! ### Parameters and memory size (00_scope R6, 20_memory R40) -/

section
variable {s t : State}

/-- A step that answers a next state either ran an instruction or took a fault of fetch or decode. -/
theorem step_effect_or_fault (h : step s = .next t) : (∃ i, Effect i s t) ∨ ∃ f, t = s.setFaulted f := by
  obtain ⟨-, ⟨_, i, -, -, hexec⟩ | ⟨w, _, -, -, rfl⟩ | ⟨f, -, rfl⟩⟩ := step_next h
  · exact .inl ⟨i, exec_effect hexec⟩
  · exact .inr ⟨.illegalInstruction s.pc w, rfl⟩
  · exact .inr ⟨f, rfl⟩

/-- No effect of an instruction writes the parameters. -/
theorem Effect.cfg_eq {i : Instr} (h : Effect i s t) : t.cfg = s.cfg := by
  cases h <;> simp

/-- The effects that write memory write bytes into it and do not resize it. -/
theorem Effect.mem_size_eq {i : Instr} (h : Effect i s t) : t.mem.size = s.mem.size := by
  cases h <;> simp

end

/-- Settles O11: an instruction's effect keeps both, and taking a fault changes the run state alone. -/
theorem stepKeepsParametersAndMemorySize : Obligations.StepKeepsParametersAndMemorySize := by
  intro s t h
  rcases step_effect_or_fault h with ⟨i, heffect⟩ | ⟨f, rfl⟩
  · exact ⟨heffect.cfg_eq, heffect.mem_size_eq⟩
  · exact ⟨State.setFaulted_cfg s f, congrArg Memory.size (State.setFaulted_mem s f)⟩

/-! ### Contraction and extension (00_scope R9, R10) -/

/-- Contraction keeps the remainder modulo 2^w; the `toNat` in its definition loses nothing. -/
theorem contract_eq_emod (v : Int) (w : Nat) : ((contract v w : Nat) : Int) = v % 2 ^ w :=
  Int.toNat_of_nonneg (Int.emod_nonneg v (by positivity))

/-- Contraction is the bit pattern of the two's-complement word. -/
theorem contract_eq_toNat_ofInt (v : Int) (w : Nat) : contract v w = (BitVec.ofInt w v).toNat := by
  simp [contract, BitVec.toNat_ofInt]

/-- Extension undoes contraction on the values `w` bits can hold: both pass through the `w`-bit word. -/
theorem extend_contract {v : Int} {w : Nat} (hw : 0 < w) (hlo : -(2 ^ (w - 1)) ≤ v) (hhi : v < 2 ^ (w - 1)) :
    extend (contract v w) w = v := by
  rw [contract_eq_toNat_ofInt, extend_toNat]
  exact BitVec.toInt_ofInt_eq_self hw hlo hhi

/-- Settles O22: the remainder from the definition, the law of R10 through the `w`-bit word. -/
theorem extendOfContractIsTheValue : Obligations.ExtendOfContractIsTheValue :=
  fun w v => ⟨contract_eq_emod v w, extend_contract⟩

end Sys2Proof.Machine

/-! The family 10_state: reset (R36), the run state (R31), the destination register (R21, R23), the advance of the pc
(R27), and the independence of a step from the trace before it and what the output device shows (R35). -/

namespace Sys2Proof.Machine

/-! ### Reset (10_state R36, 70_reset R261) -/

/-- A memory that lists no byte reads 0 everywhere (20_memory R40). -/
theorem Memory.readByte_of_cells_nil {m : Memory} (h : m.cells = []) (a : Nat) : m.readByte a = 0 := by
  rw [Memory.readByte, h, lookupCell]

/-- Settles O1: the values written in `State.reset`; x[0] is not stored, and no byte of memory is listed. -/
theorem resetStartsRunningAtZero : Obligations.ResetStartsRunningAtZero :=
  ⟨rfl, rfl, State.reg_zero State.reset, Memory.readByte_of_cells_nil rfl⟩

/-! ### The run state (10_state R30, R31) -/

section
variable {s t : State} {i : Instr}

/-- What an instruction can do to the run state: fault, changing nothing else; halt, if it is `HALT`; or keep it. -/
theorem Effect.run_cases (h : Effect i s t) :
    (∃ f, t = s.setFaulted f) ∨ (i = .halt ∧ t.run = .halted) ∨ t.run = s.run := by
  cases h with
  | fault f _ => exact .inl ⟨f, rfl⟩
  | halt hi => exact .inr (.inl ⟨hi, by simp⟩)
  | advance | emit | reg | jump | branch | store | input => exact .inr (.inr (by simp))

/-- `HALT` always completes, in run state `Halted`. -/
theorem run_of_exec_halt (h : exec .halt s = .next t) : t.run = .halted := by
  obtain rfl := complete_next.1 h
  simp

/-- An instruction run in `Running` leads to `Halted` exactly if it is `HALT`. -/
theorem exec_run_halted_iff (hs : s.run = .running) (h : exec i s = .next t) : t.run = .halted ↔ i = .halt := by
  refine ⟨fun ht => ?_, fun hi => run_of_exec_halt (hi ▸ h)⟩
  rcases (exec_effect h).run_cases with ⟨f, rfl⟩ | ⟨hi, -⟩ | hrun
  · simp at ht
  · exact hi
  · simp [hrun, hs] at ht

/-- A state that differs from `s` by a taken fault is `Faulted` with that fault, and with no other. -/
theorem eq_setFaulted_of_run {f g : Fault} (h : t = s.setFaulted f) (ht : t.run = .faulted g) : t = s.setFaulted g := by
  subst h
  obtain rfl : f = g := by simpa using ht
  rfl

/-- A step leads from `Running` to `Halted` exactly when the fetched word is `HALT`. -/
theorem step_run_halted_iff (h : step s = .next t) :
    t.run = .halted ↔ ∃ w, fetch s = .ok w ∧ decodeWord w = .ok .halt := by
  obtain ⟨hs, ⟨w, i, hw, hi, hexec⟩ | ⟨w, e, hw, he, rfl⟩ | ⟨f, hf, rfl⟩⟩ := step_next h
  · simp [exec_run_halted_iff hs hexec, hw, hi]
  · simp [hw, he]
  · simp [hf]

/-- A step leads to `Faulted` only by taking the fault. -/
theorem step_eq_setFaulted {f : Fault} (h : step s = .next t) (ht : t.run = .faulted f) : t = s.setFaulted f := by
  have hs : s.run = .running := (step_next h).1
  rcases step_effect_or_fault h with ⟨i, heffect⟩ | ⟨g, hg⟩
  · rcases heffect.run_cases with ⟨g, hg⟩ | ⟨-, hrun⟩ | hrun
    · exact eq_setFaulted_of_run hg ht
    · simp [hrun] at ht
    · simp [hrun, hs] at ht
  · exact eq_setFaulted_of_run hg ht

theorem step_of_halted (h : s.run = .halted) : step s = .refused .halted := by
  simp [step, h]

theorem step_of_faulted {f : Fault} (h : s.run = .faulted f) : step s = .fault f := by
  simp [step, h]

end

/-- Settles O7: `step` is guarded by the run state, and what it does to the run state is what the instruction does. -/
theorem runStateTransitions : Obligations.RunStateTransitions :=
  fun _ => ⟨step_of_halted, fun _ => step_of_faulted, fun _ h =>
    ⟨(step_next h).1, step_run_halted_iff h, fun _ => step_eq_setFaulted h⟩⟩

/-! ### The destination register (10_state R21, R23) and the pc (R27) -/

section
variable {s t : State} {i : Instr}

/-- An instruction leaves every register but its destination as it was. -/
theorem Effect.reg_eq (h : Effect i s t) {r : Reg} (hr : destination i ≠ some r) : t.reg r = s.reg r := by
  cases h with
  | reg q v hd _ | jump q v target hd _ =>
    have hne : r ≠ q := fun hrq => hr (hrq ▸ hd)
    by_cases h0 : r = 0 <;> simp [State.reg_setReg, h0, hne]
  | fault | halt | advance | emit | branch | store | input => simp

/-- An instruction whose destination is x[0] changes no register: x[0] reads 0 in every state. -/
theorem Effect.sameRegs_of_destination_zero (h : Effect i s t) (hd : destination i = some 0) : SameRegs s t := by
  intro r
  by_cases h0 : r = 0
  · subst h0; simp
  · exact h.reg_eq (by simpa [hd] using Ne.symm h0)

/-- An instruction that may not set the pc advances it, unless it faults. -/
theorem Effect.pc_eq_add_four (h : Effect i s t) (hpc : maySetPc i = false) (hf : ∀ f, t.run ≠ .faulted f) :
    t.pc = s.pc + 4 := by
  cases h with
  | fault f _ => exact absurd (State.setFaulted_run s f) (hf f)
  | jump _ _ _ _ hset | branch _ hset => simp [hpc] at hset
  | halt | advance | emit | reg | store | input => simp

end

/-- Settles O14: the effects of `exec` that write a register write the destination. -/
theorem onlyTheDestinationRegisterChanges : Obligations.OnlyTheDestinationRegisterChanges :=
  fun _ s t h => ⟨fun _ => (exec_effect h).reg_eq, s.reg_zero, t.reg_zero,
    (exec_effect h).sameRegs_of_destination_zero⟩

/-- Settles O16: every effect of `exec` but a fault, a jump and a taken branch ends in an advance. -/
theorem pcAdvancesUnlessJumpOrBranch : Obligations.PcAdvancesUnlessJumpOrBranch := by
  intro i s t _ h hf hpc
  simp [Advanced, (exec_effect h).pc_eq_add_four hpc hf]

/-! ### An older trace commutes with every update of the state (10_state R35) -/

section
variable (s : State) (es : List Event)

@[simp] theorem State.withEarlierEvents_pc : (s.withEarlierEvents es).pc = s.pc := rfl
@[simp] theorem State.withEarlierEvents_mem : (s.withEarlierEvents es).mem = s.mem := rfl
@[simp] theorem State.withEarlierEvents_run : (s.withEarlierEvents es).run = s.run := rfl
@[simp] theorem State.withEarlierEvents_input : (s.withEarlierEvents es).input = s.input := rfl
@[simp] theorem State.withEarlierEvents_cfg : (s.withEarlierEvents es).cfg = s.cfg := rfl
@[simp] theorem State.withEarlierEvents_reg (r : Reg) : (s.withEarlierEvents es).reg r = s.reg r := by
  obtain ⟨r, hr⟩ := r; cases r <;> rfl

@[simp] theorem State.withEarlierEvents_memAddr (r : Reg) (imm : BitVec 16) :
    (s.withEarlierEvents es).memAddr r imm = s.memAddr r imm := by
  simp [State.memAddr]
@[simp] theorem State.withEarlierEvents_ioAddr (r : Reg) (imm : BitVec 21) :
    (s.withEarlierEvents es).ioAddr r imm = s.ioAddr r imm := by
  simp [State.ioAddr]
@[simp] theorem State.withEarlierEvents_ioSum (r : Reg) (imm : BitVec 21) :
    (s.withEarlierEvents es).ioSum r imm = s.ioSum r imm := by
  simp [State.ioSum]

@[simp] theorem State.withEarlierEvents_setReg (r : Reg) (v : Word) :
    (s.withEarlierEvents es).setReg r v = (s.setReg r v).withEarlierEvents es := by
  obtain ⟨r, hr⟩ := r; cases r <;> rfl
@[simp] theorem State.withEarlierEvents_jumpTo (t : Word) :
    (s.withEarlierEvents es).jumpTo t = (s.jumpTo t).withEarlierEvents es := rfl
@[simp] theorem State.withEarlierEvents_advance :
    (s.withEarlierEvents es).advance = s.advance.withEarlierEvents es := rfl
@[simp] theorem State.withEarlierEvents_setMem (m : Memory) :
    (s.withEarlierEvents es).setMem m = (s.setMem m).withEarlierEvents es := rfl
@[simp] theorem State.withEarlierEvents_setInput (items : List InputItem) :
    (s.withEarlierEvents es).setInput items = (s.setInput items).withEarlierEvents es := rfl
@[simp] theorem State.withEarlierEvents_setHalted :
    (s.withEarlierEvents es).setHalted = s.setHalted.withEarlierEvents es := rfl
@[simp] theorem State.withEarlierEvents_setFaulted (f : Fault) :
    (s.withEarlierEvents es).setFaulted f = (s.setFaulted f).withEarlierEvents es := rfl

/-- A device call is appended at the other end of the trace. -/
@[simp] theorem State.withEarlierEvents_emit (e : Event) :
    (s.withEarlierEvents es).emit e = (s.emit e).withEarlierEvents es := by
  simp [State.withEarlierEvents, State.emit]

end

/-! ### A step commutes with an older trace (10_state R35, 70_reset R267) -/

/-- An outcome with an older trace in front of that of its next state. -/
def outcomeWithEarlierEvents (es : List Event) :
    Host.Outcome State Fault Refusal → Host.Outcome State Fault Refusal
  | .next t => .next (t.withEarlierEvents es)
  | .fault f => .fault f
  | .refused r => .refused r

section
variable (s : State) (es : List Event)

@[simp] theorem outcomeWithEarlierEvents_next :
    outcomeWithEarlierEvents es (.next s) = .next (s.withEarlierEvents es) := rfl
@[simp] theorem outcomeWithEarlierEvents_fault (f : Fault) : outcomeWithEarlierEvents es (.fault f) = .fault f := rfl
@[simp] theorem outcomeWithEarlierEvents_refused (r : Refusal) :
    outcomeWithEarlierEvents es (.refused r) = .refused r := rfl

@[simp] theorem raise_withEarlierEvents (f : Fault) :
    raise f (s.withEarlierEvents es) = outcomeWithEarlierEvents es (raise f s) := rfl

@[simp] theorem complete_withEarlierEvents :
    complete (s.withEarlierEvents es) = outcomeWithEarlierEvents es (complete s) := rfl

@[simp] theorem completeWith_withEarlierEvents (r : Reg) (v : Word) :
    completeWith r v (s.withEarlierEvents es) = outcomeWithEarlierEvents es (completeWith r v s) := by
  simp [completeWith]

theorem aluReg_withEarlierEvents (f : Word → Word → Word) (ra rb rc : Reg) :
    aluReg f ra rb rc (s.withEarlierEvents es) = outcomeWithEarlierEvents es (aluReg f ra rb rc s) := by
  simp [aluReg]

theorem aluImm_withEarlierEvents (f : Word → Word → Word) (ra rb : Reg) (imm : BitVec 16) :
    aluImm f ra rb imm (s.withEarlierEvents es) = outcomeWithEarlierEvents es (aluImm f ra rb imm s) := by
  simp [aluImm]

theorem divide_withEarlierEvents (f : Word → Word → Word) (ra rb rc : Reg) :
    divide f ra rb rc (s.withEarlierEvents es) = outcomeWithEarlierEvents es (divide f ra rb rc s) := by
  simp only [divide, State.withEarlierEvents_reg]
  split <;> simp

theorem linkAndJump_withEarlierEvents (ra rb : Reg) (imm : BitVec 16) :
    linkAndJump ra rb imm (s.withEarlierEvents es) = outcomeWithEarlierEvents es (linkAndJump ra rb imm s) := by
  simp [linkAndJump]

theorem branchIf_withEarlierEvents (cond : Word → Word → Bool) (ra rb : Reg) (imm : BitVec 16) :
    branchIf cond ra rb imm (s.withEarlierEvents es) = outcomeWithEarlierEvents es (branchIf cond ra rb imm s) := by
  simp only [branchIf, State.withEarlierEvents_reg]
  split <;> simp

theorem loadFrom_withEarlierEvents (w : Width) (ra rb : Reg) (imm : BitVec 16) :
    loadFrom w ra rb imm (s.withEarlierEvents es) = outcomeWithEarlierEvents es (loadFrom w ra rb imm s) := by
  simp only [loadFrom, State.withEarlierEvents_mem, State.withEarlierEvents_memAddr]
  split <;> simp

theorem storeTo_withEarlierEvents (w : Width) (ra rb : Reg) (imm : BitVec 16) :
    storeTo w ra rb imm (s.withEarlierEvents es) = outcomeWithEarlierEvents es (storeTo w ra rb imm s) := by
  simp only [storeTo, State.withEarlierEvents_mem, State.withEarlierEvents_memAddr]
  split <;> simp

theorem execSleep_withEarlierEvents (ra : Reg) (imm : BitVec 21) :
    execSleep ra imm (s.withEarlierEvents es) = outcomeWithEarlierEvents es (execSleep ra imm s) := by
  simp only [execSleep, State.withEarlierEvents_ioSum]
  split <;> simp

theorem execIn_withEarlierEvents (ra rb : Reg) (imm : BitVec 21) :
    execIn ra rb imm (s.withEarlierEvents es) = outcomeWithEarlierEvents es (execIn ra rb imm s) := by
  simp only [execIn, State.withEarlierEvents_reg, State.withEarlierEvents_ioAddr, State.withEarlierEvents_mem,
    State.withEarlierEvents_input]
  split
  · simp
  split
  · simp
  split
  · split <;> simp
  · simp

theorem execOut_withEarlierEvents (ra rb : Reg) (imm : BitVec 21) :
    execOut ra rb imm (s.withEarlierEvents es) = outcomeWithEarlierEvents es (execOut ra rb imm s) := by
  simp only [execOut, State.withEarlierEvents_reg, State.withEarlierEvents_ioAddr, State.withEarlierEvents_mem]
  split
  · split <;> simp
  · simp

theorem outNumber_withEarlierEvents (kind : NumKind) (ra : Reg) (imm : BitVec 21) :
    outNumber kind ra imm (s.withEarlierEvents es) = outcomeWithEarlierEvents es (outNumber kind ra imm s) := by
  simp [outNumber]

theorem execOutc_withEarlierEvents (ra : Reg) (imm : BitVec 21) :
    execOutc ra imm (s.withEarlierEvents es) = outcomeWithEarlierEvents es (execOutc ra imm s) := by
  simp only [execOutc, State.withEarlierEvents_ioSum]
  split <;> simp

/-- No instruction reads the trace: each ends in a shared operation that commutes with an older one. -/
theorem exec_withEarlierEvents (i : Instr) :
    exec i (s.withEarlierEvents es) = outcomeWithEarlierEvents es (exec i s) := by
  cases i with
  | halt => exact complete_withEarlierEvents s.setHalted es
  | nop => exact complete_withEarlierEvents s es
  | cl => simp [exec, execCl]
  | sleep => exact execSleep_withEarlierEvents s es _ _
  | in_ => exact execIn_withEarlierEvents s es _ _ _
  | out => exact execOut_withEarlierEvents s es _ _ _
  | outd | outb | outh => exact outNumber_withEarlierEvents s es _ _ _
  | outc => exact execOutc_withEarlierEvents s es _ _
  | add | sub | and | or | xor | ls | rs => exact aluReg_withEarlierEvents s es _ _ _ _
  | addi | subi | andi | ori | xori | lsi | rsi => exact aluImm_withEarlierEvents s es _ _ _ _
  | mul => simp [exec, execMul]
  | div | mod => exact divide_withEarlierEvents s es _ _ _ _
  | j | jal => exact linkAndJump_withEarlierEvents s es _ _ _
  | beq | bne | blt | bge => exact branchIf_withEarlierEvents s es _ _ _ _
  | lw | lb | lh => exact loadFrom_withEarlierEvents s es _ _ _ _
  | sw | sb | sh => exact storeTo_withEarlierEvents s es _ _ _ _

@[simp] theorem fetch_withEarlierEvents : fetch (s.withEarlierEvents es) = fetch s := rfl

theorem cycle_withEarlierEvents : cycle (s.withEarlierEvents es) = outcomeWithEarlierEvents es (cycle s) := by
  simp only [cycle, fetch_withEarlierEvents]
  split
  · simp only [runWord]
    split
    · exact exec_withEarlierEvents s es _
    · simp
  · simp

theorem step_withEarlierEvents : step (s.withEarlierEvents es) = outcomeWithEarlierEvents es (step s) := by
  simp only [step, State.withEarlierEvents_run]
  split
  · exact cycle_withEarlierEvents s es
  · simp
  · simp

end

/-- Settles O13: the step commutes with the older trace, so each outcome of the one run gives that of the other. -/
theorem earlierEventsDoNotInfluenceAStep : Obligations.EarlierEventsDoNotInfluenceAStep := by
  intro s es
  rw [step_withEarlierEvents]
  exact ⟨fun t h => by simp [h], fun f h => by simp [h], fun r h => by simp [h]⟩

/-! ### What the output device shows (10_state R35, 42_io R137) -/

/-- Events with no clear among them are shown after what stood there, the delays left out. -/
theorem displayAfter_eq_append_filter {es : List Event} (h : .clear ∉ es) (shown : List Event) :
    displayAfter shown es = shown ++ es.filter isShown := by
  induction es generalizing shown with
  | nil => simp [displayAfter]
  | cons e es ih =>
    have hes : .clear ∉ es := fun hmem => h (List.mem_cons_of_mem e hmem)
    cases e with
    | clear => simp at h
    | delay | out | outNum | outChar => simp [displayAfter, ih hes, isShown, List.filter_cons]

/-- A clear discards all that was shown before it. -/
theorem displayAfter_append_clear (shown earlier later : List Event) :
    displayAfter shown (earlier ++ .clear :: later) = displayAfter [] later := by
  induction earlier generalizing shown with
  | nil => rfl
  | cons e earlier ih => cases e <;> exact ih _

/-- Settles O36: a clear discards what stood before it, and the events after it are shown without the delays. -/
theorem displayIsWhatWasWrittenSinceTheLastClear : Obligations.DisplayIsWhatWasWrittenSinceTheLastClear := by
  intro s later hlater
  have hshown : displayAfter [] later = later.filter isShown := by
    simpa using displayAfter_eq_append_filter hlater []
  refine ⟨fun h => ?_, fun earlier h => ?_⟩
  · rw [State.display, h, hshown]
  · rw [State.display, h, displayAfter_append_clear, hshown]

end Sys2Proof.Machine

/-! The family 20_memory: who writes memory (R41), the canonical form every step keeps (R40, log 12), big-endian reads of
mixed widths (R43), the two readings of an address (R46), and stored code (R54). -/

namespace Sys2Proof.Machine

/-! ### Which effects write memory (20_memory R41) and what they keep (R40, log 12) -/

section
variable {s t : State} {i : Instr}

/-- The effects that write memory belong to the stores and `IN`. -/
theorem Effect.mem_eq (h : Effect i s t) (hm : mayWriteMemory i = false) : t.mem = s.mem := by
  cases h with
  | store _ _ _ hwrites | input _ _ _ _ hwrites => simp [hm] at hwrites
  | fault | halt | advance | emit | reg | jump | branch => simp

/-- An instruction writes memory only inside its bounds, so it keeps the canonical form. -/
theorem Effect.mem_wf (h : Effect i s t) (hs : s.mem.wf = true) : t.mem.wf = true := by
  cases h with
  | store _ _ hb _ | input _ _ _ hb _ _ => simpa using Memory.wf_writeBytes hs hb
  | fault | halt | advance | emit | reg | jump | branch => simpa using hs

theorem step_keeps_mem_wf (h : step s = .next t) (hs : s.mem.wf = true) : t.mem.wf = true := by
  rcases step_effect_or_fault h with ⟨_, heffect⟩ | ⟨_, rfl⟩
  · exact heffect.mem_wf hs
  · simpa using hs

theorem State.wf_iff : s.wf = true ↔
    s.mem.wf = true ∧ Config.minMemSize ≤ s.mem.size ∧ s.mem.size ≤ Config.maxMemSize := by
  simp [State.wf, and_assoc]

end

/-- Settles O10: a step keeps the canonical form of memory and does not resize it. -/
theorem stepKeepsTheStateWellFormed : Obligations.StepKeepsTheStateWellFormed := by
  intro s t hs h
  obtain ⟨hmem, hsize⟩ := State.wf_iff.1 hs
  have hkept : t.mem.size = s.mem.size := (stepKeepsParametersAndMemorySize s t h).2
  exact State.wf_iff.2 ⟨step_keeps_mem_wf h hmem, hkept ▸ hsize⟩

/-- Settles O15: of the effects of `exec`, only those of the stores and `IN` write memory. -/
theorem onlyStoresAndInWriteMemory : Obligations.OnlyStoresAndInWriteMemory :=
  fun _ _ _ h => (exec_effect h).mem_eq

/-! ### The two readings of an address (20_memory R46) -/

theorem imm16_bounds (imm : BitVec 16) : -2 ^ 15 ≤ imm16 imm ∧ imm16 imm < 2 ^ 15 :=
  ⟨BitVec.le_toInt imm, BitVec.toInt_lt⟩

/-- A register plus an offset of at most 2^20 in size stays within 2^20 of the signed 32-bit range. -/
theorem toInt_add_bounds (x : Word) {off : Int} (h : -2 ^ 20 ≤ off ∧ off < 2 ^ 20) :
    -2 ^ 31 - 2 ^ 20 ≤ x.toInt + off ∧ x.toInt + off < 2 ^ 31 + 2 ^ 20 := by
  have hlo := BitVec.le_toInt x
  have hhi := BitVec.toInt_lt (x := x)
  omega

theorem State.memAddr_bounds (s : State) (r : Reg) (imm : BitVec 16) :
    -2 ^ 31 - 2 ^ 20 ≤ s.memAddr r imm ∧ s.memAddr r imm < 2 ^ 31 + 2 ^ 20 := by
  have himm := imm16_bounds imm
  exact toInt_add_bounds (s.reg r) (by omega)

theorem State.ioAddr_bounds (s : State) (r : Reg) (imm : BitVec 21) :
    -2 ^ 31 - 2 ^ 20 ≤ s.ioAddr r imm ∧ s.ioAddr r imm < 2 ^ 31 + 2 ^ 20 :=
  toInt_add_bounds (s.reg r) (imm21_bounds s.cfg.ctlIoImmWidth imm)

/-- Both bounds checks agree on an address near the signed 32-bit range: a negative one has a pattern of at least
2^31 - 2^20, past every memory, and one that is not negative is its own pattern. -/
theorem bounds_check_of_emod {A : Int} {p n size : Nat} (hA : -2 ^ 31 - 2 ^ 20 ≤ A ∧ A < 2 ^ 31 + 2 ^ 20)
    (hn : 0 < n) (hsize : size ≤ 2 ^ 30) (hp : (p : Int) = A % 2 ^ 32) :
    ((0 ≤ A ∧ A + n ≤ size) ↔ p + n ≤ size) ∧ (p + n ≤ size → A = p) := by
  rcases lt_or_ge A 0 with hneg | hnonneg
  · have hpast : 2 ^ 31 - 2 ^ 20 ≤ p := by omega
    omega
  · have hself : A = p := by omega
    omega

/-- Settles O51: both kinds of address stay within 2^20 of the signed 32-bit range. -/
theorem addressReadingsAgree : Obligations.AddressReadingsAgree := by
  intro s r imm z n hn hsize
  refine ⟨s.memAddr_eq r imm, rfl, fun A p hA hp => ?_⟩
  rcases hA with rfl | rfl
  · exact bounds_check_of_emod (s.memAddr_bounds r imm) hn hsize hp
  · exact bounds_check_of_emod (s.ioAddr_bounds r z) hn hsize hp

/-! ### Reads of mixed widths, and a load after a store (20_memory R43) -/

theorem Memory.load_word_eq_halves (m : Memory) (a : Nat) :
    (m.load a .word).toNat = (m.load a .half).toNat * 2 ^ 16 + (m.load (a + 2) .half).toNat := by
  rw [Memory.load_word_toNat, Memory.load_half_toNat, Memory.load_half_toNat]
  ring

theorem Memory.load_half_eq_bytes (m : Memory) (a : Nat) :
    (m.load a .half).toNat = (m.load a .byte).toNat * 2 ^ 8 + (m.load (a + 1) .byte).toNat := by
  rw [Memory.load_half_toNat, Memory.load_byte_toNat, Memory.load_byte_toNat]

section
variable {m : Memory} {a : Nat} (hm : m.wf = true)
include hm

/-- A store inside memory is read back byte by byte. -/
theorem Memory.readByte_store {w : Width} (ha : a + w.bytes ≤ m.size) (v : Word) (k : Nat)
    (hk : k < (storedBytes v w).length) : (m.store a w v).readByte (a + k) = (storedBytes v w)[k] :=
  Memory.readByte_writeBytes_inside hm (by simpa using ha) k hk

/-- A stored word is loaded back unchanged. -/
theorem Memory.load_store_word (ha : a + 4 ≤ m.size) (v : Word) : (m.store a .word v).load a .word = v := by
  have hread := Memory.readByte_store hm (w := .word) ha v
  have h0 : (m.store a .word v).readByte a = byteOf v 3 := hread 0 (by simp [Width.bytes])
  have h1 : (m.store a .word v).readByte (a + 1) = byteOf v 2 := hread 1 (by simp [Width.bytes])
  have h2 : (m.store a .word v).readByte (a + 2) = byteOf v 1 := hread 2 (by simp [Width.bytes])
  have h3 : (m.store a .word v).readByte (a + 3) = byteOf v 0 := hread 3 (by simp [Width.bytes])
  rw [Memory.load, h0, h1, h2, h3, wordOfBytes_byteOf]

/-- A load gives back what a store of its width and address wrote: the value, truncated to the width. -/
theorem Memory.load_store_toNat {w : Width} (ha : a + w.bytes ≤ m.size) (v : Word) :
    ((m.store a w v).load a w).toNat = v.toNat % 2 ^ (8 * w.bytes) := by
  have hread := Memory.readByte_store hm ha v
  cases w with
  | byte =>
    have h0 : (m.store a .byte v).readByte a = byteOf v 0 := hread 0 (by simp [Width.bytes])
    simp [Memory.load_byte_toNat, h0, byteOf_toNat, Width.bytes]
  | half =>
    have h0 : (m.store a .half v).readByte a = byteOf v 1 := hread 0 (by simp [Width.bytes])
    have h1 : (m.store a .half v).readByte (a + 1) = byteOf v 0 := hread 1 (by simp [Width.bytes])
    simp only [Memory.load_half_toNat, h0, h1, byteOf_toNat, Width.bytes]
    omega
  | word =>
    rw [Memory.load_store_word hm ha]
    exact (Nat.mod_eq_of_lt v.isLt).symm

end

/-- Settles O52: each width is read as its big-endian bytes, and a store is read back byte by byte. -/
theorem mixedWidthsViewTheSameBytes : Obligations.MixedWidthsViewTheSameBytes :=
  fun m a => ⟨m.load_word_eq_halves a, m.load_half_eq_bytes a, m.load_byte_toNat a,
    fun _ v hm ha => Memory.load_store_toNat hm ha v⟩

/-! ### Stored code (20_memory R54, 70_reset R265) -/

section
variable {s : State}

/-- A store whose bytes are inside memory completes. -/
theorem storeTo_of_inBounds {w : Width} {ra rb : Reg} {imm : BitVec 16} {a : Nat} (haddr : s.memAddr ra imm = a)
    (ha : a + w.bytes ≤ s.mem.size) :
    storeTo w ra rb imm s = .next (s.setMem (s.mem.store a w (s.reg rb))).advance := by
  have hb : s.mem.InBounds a w.bytes := ⟨by omega, by omega⟩
  simp [storeTo, haddr, hb, complete]

/-- A running machine whose fetched word decodes runs the instruction. -/
theorem step_eq_exec {w : Word} {j : Instr} (hrun : s.run = .running) (hw : fetch s = .ok w)
    (hj : decodeWord w = .ok j) : step s = exec j s := by
  simp [step, hrun, cycle, hw, runWord, hj]

/-- A fetch at the address where a word was stored reads that word. -/
theorem fetch_of_mem_eq_store {m : Memory} {a : Nat} {v : Word} (hm : m.wf = true) (ha : a + 4 ≤ m.size)
    (hmem : s.mem = m.store a .word v) (hpc : s.pc.toNat = a) : fetch s = .ok v := by
  rw [fetch_of_inBounds (by rw [hpc, hmem, Memory.store_size]; exact ha), hpc, hmem, Memory.load_store_word hm ha]

end

/-- Settles O53: the store completes, its advance lands on the stored word, and the fetch there loads it back. -/
theorem storedCodeIsRunByTheNextStep : Obligations.StoredCodeIsRunByTheNextStep := by
  intro s ra rb imm j hwf hrun haddr hsize hmax hj
  have hpc : (s.pc + 4).toNat = s.pc.toNat + 4 := by
    unfold Config.maxMemSize at hmax
    exact BitVec.toNat_add_of_lt (show s.pc.toNat + 4 < 2 ^ 32 by omega)
  exact ⟨_, storeTo_of_inBounds (by exact_mod_cast haddr) hsize, hpc,
    step_eq_exec hrun (fetch_of_mem_eq_store hwf hsize rfl hpc) hj⟩

end Sys2Proof.Machine

/-! The family 30_encoding: decode and encode are inverse on the bits an instruction reads (R67 to R74), the immediates as
integers (R64 to R66), and the assembler's packing, statements, labels and sizes (R84 to R91). -/

namespace Sys2Proof

open Machine

/-! ### The operands of an instruction, by the format of its word (30_encoding R63) -/

/-- The operands of an instruction: none, or those of format C, O, I or R. What the encoder, the decoder, `wellFormed` and
`readMask` do with an instruction is its opcode, its function and what the format does with the operands. -/
inductive Operands where
  | none
  | c (ra : Reg) (imm : BitVec 21)
  | o (ra rb : Reg) (imm : BitVec 21)
  | i (ra rb : Reg) (imm : BitVec 16)
  | r (ra rb rc : Reg)

/-- The operands of an instruction in its format. -/
def Instr.operands : Instr → Operands
  | .halt | .nop | .cl => .none
  | .sleep ra imm => .c ra imm
  | .in_ ra rb imm | .out ra rb imm | .outd ra rb imm | .outb ra rb imm | .outh ra rb imm
  | .outc ra rb imm => .o ra rb imm
  | .add ra rb rc | .sub ra rb rc | .and ra rb rc | .or ra rb rc | .xor ra rb rc | .ls ra rb rc
  | .rs ra rb rc => .r ra rb rc
  | .mul ra rb rc | .div ra rb rc | .mod ra rb rc => .r ra rb rc
  | .addi ra rb imm | .subi ra rb imm | .andi ra rb imm | .ori ra rb imm | .xori ra rb imm | .lsi ra rb imm
  | .rsi ra rb imm => .i ra rb imm
  | .j ra rb imm | .jal ra rb imm => .i ra rb imm
  | .beq ra rb imm | .bne ra rb imm | .blt ra rb imm | .bge ra rb imm => .i ra rb imm
  | .lw ra rb imm | .lb ra rb imm | .lh ra rb imm | .sw ra rb imm | .sb ra rb imm
  | .sh ra rb imm => .i ra rb imm

/-- The opcode of an instruction's row of the opcode table (30_encoding R68). -/
def Instr.opcode (i : Instr) : BitVec 3 := BitVec.ofNat 3 (Laws.tableTag i / 8)

/-- The function of an instruction's row of the opcode table (30_encoding R69). -/
def Instr.function (i : Instr) : BitVec 3 := BitVec.ofNat 3 (Laws.tableTag i % 8)

namespace Operands

/-- The word of the operands under an opcode and a function. -/
def word (op fn : BitVec 3) : Operands → Word
  | .none => encodeBare op fn
  | .c ra imm | .o ra _ imm => encodeC op fn ra imm
  | .i ra rb imm => encodeI op fn ra rb imm
  | .r ra rb rc => encodeR op fn ra rb rc

/-- The operands agree where their bits overlap, as they do in every format but O (30_encoding R62). -/
def agree : Operands → Bool
  | .o _ rb imm => ioOverlapOk rb imm
  | .none | .c _ _ | .i _ _ _ | .r _ _ _ => true

/-- How many of a word's low bits the format does not read (30_encoding R71). -/
def unread : Operands → Nat
  | .none => 26
  | .r _ _ _ => 11
  | .c _ _ | .o _ _ _ | .i _ _ _ => 0

/-- The operands are what the fields of the word hold. -/
def StandIn (w : Word) : Operands → Prop
  | .none => True
  | .c ra imm => fieldA w = ra ∧ fieldImm21 w = imm
  | .o ra rb imm => fieldA w = ra ∧ fieldB w = rb ∧ fieldImm21 w = imm
  | .i ra rb imm => fieldA w = ra ∧ fieldB w = rb ∧ fieldImm16 w = imm
  | .r ra rb rc => fieldA w = ra ∧ fieldB w = rb ∧ fieldC w = rc

end Operands

theorem encode_eq_word (i : Instr) : encode i = i.operands.word i.opcode i.function := by
  cases i <;> simp [Instr.opcode, Instr.function, Laws.tableTag] <;> rfl

theorem wellFormed_eq_agree (i : Instr) : i.wellFormed = i.operands.agree := by
  cases i <;> rfl

/-- A word whose low `m` bits are cleared. -/
def clearLow (m : Nat) (w : Word) : Word := w &&& BitVec.ofNat 32 (2 ^ 32 - 2 ^ m)

theorem and_readMask (w : Word) (i : Instr) : w &&& readMask i = clearLow i.operands.unread w := by
  cases i <;> rfl

/-! ### What the decoder answers (30_encoding R67 to R70) -/

theorem decodeWord_eq_ok {w : Word} {i : Instr} : decodeWord w = .ok i ↔ decodeByOpcode w = some i := by
  unfold decodeWord
  split <;> simp [*]

/-- One case for each instruction: its opcode selects the category's decoder, its function the arm. -/
theorem decodeByOpcode_of_fields {w : Word} {i : Instr} (hop : opcode w = i.opcode) (hfn : function w = i.function)
    (hst : i.operands.StandIn w) : decodeByOpcode w = some i := by
  cases i <;> simp_all [Instr.opcode, Instr.function, Laws.tableTag, Instr.operands, Operands.StandIn, decodeByOpcode,
    decodeCtl, decodeIo, decodeAlur, decodeAlui, decodeMd, decodeJump, decodeBranch, decodeMem]

/-- One case for each arm of the eight decoders: the arm fixes the numbers and reads the operands from the fields. -/
theorem fields_of_decodeByOpcode {w : Word} {i : Instr} (h : decodeByOpcode w = some i) :
    opcode w = i.opcode ∧ function w = i.function ∧ i.operands.StandIn w := by
  simp only [← BitVec.toNat_inj]
  unfold decodeByOpcode decodeCtl decodeIo decodeAlur decodeAlui decodeMd decodeJump decodeBranch decodeMem at h
  repeat' split at h
  all_goals cases h <;> simp [Instr.opcode, Instr.function, Laws.tableTag, Instr.operands, Operands.StandIn, *]

/-- A word decodes to the instruction whose opcode, function and operands its fields hold. -/
theorem decodeWord_eq_ok_iff {w : Word} {i : Instr} : decodeWord w = .ok i ↔
    opcode w = i.opcode ∧ function w = i.function ∧ i.operands.StandIn w :=
  decodeWord_eq_ok.trans ⟨fields_of_decodeByOpcode, fun ⟨hop, hfn, hst⟩ => decodeByOpcode_of_fields hop hfn hst⟩

/-- The arms of each category are the functions R70 does not list for it; its last arm refuses the rest. -/
theorem decodeByOpcode_isSome_iff (w : Word) :
    (decodeByOpcode w).isSome ↔ ¬ illegalPair (opcode w).toNat (function w).toNat := by
  have hop := (opcode w).isLt
  have hfn := (function w).isLt
  unfold decodeByOpcode decodeCtl decodeIo decodeAlur decodeAlui decodeMd decodeJump decodeBranch decodeMem illegalPair
  repeat' split
  all_goals simp_all <;> omega

theorem decodeWord_ok_iff_not_illegalPair (w : Word) :
    (∃ i, decodeWord w = .ok i) ↔ ¬ illegalPair (opcode w).toNat (function w).toNat := by
  simp only [← decodeByOpcode_isSome_iff, Option.isSome_iff_exists, decodeWord_eq_ok]

/-- An illegal pair is refused. -/
theorem decodeWord_of_illegalPair {w : Word} (h : illegalPair (opcode w).toNat (function w).toNat) :
    ∃ e, decodeWord w = .error e := by
  cases hw : decodeWord w with
  | error e => exact ⟨e, rfl⟩
  | ok i => exact absurd h ((decodeWord_ok_iff_not_illegalPair w).1 ⟨i, hw⟩)

/-! ### Decoding what was encoded (30_encoding R74) -/

namespace Operands

variable (p : Operands) (op fn : BitVec 3)

theorem opcode_word : opcode (p.word op fn) = op := by
  cases p with
  | none | c | o => exact opcode_encodeC ..
  | i => exact opcode_encodeI ..
  | r => exact opcode_encodeR ..

theorem function_word : function (p.word op fn) = fn := by
  cases p with
  | none | c | o => exact function_encodeC ..
  | i => exact function_encodeI ..
  | r => exact function_encodeR ..

/-- The fields of an encoded word hold the operands; in format O, `rb` by the overlap. -/
theorem standIn_word (h : p.agree = true) : p.StandIn (p.word op fn) := by
  cases p with
  | none => trivial
  | c => exact ⟨fieldA_encodeC .., fieldImm21_encodeC ..⟩
  | o ra rb imm =>
    have hrb : immOverlap imm = rb := by simpa [agree, ioOverlapOk] using h
    exact ⟨fieldA_encodeC .., (fieldB_encodeC ..).trans hrb, fieldImm21_encodeC ..⟩
  | i => exact ⟨fieldA_encodeI .., fieldB_encodeI .., fieldImm16_encodeI ..⟩
  | r => exact ⟨fieldA_encodeR .., fieldB_encodeR .., fieldC_encodeR ..⟩

end Operands

/-- Settles O17: the fields of the encoded word hold the instruction's opcode, function and operands. -/
theorem decodeOfEncodeIsTheInstruction : Obligations.DecodeOfEncodeIsTheInstruction := by
  intro i hi
  rw [wellFormed_eq_agree] at hi
  rw [decodeWord_eq_ok_iff, encode_eq_word]
  exact ⟨i.operands.opcode_word .., i.operands.function_word .., i.operands.standIn_word _ _ hi⟩

/-! ### The bits an instruction reads (30_encoding R71) -/

theorem encodeBare_toNat (op fn : BitVec 3) : (encodeBare op fn).toNat = 2 ^ 29 * op.toNat + 2 ^ 26 * fn.toNat := by
  simp [encodeBare, encodeC_toNat]

section
variable {m : Nat} (w : Word)

/-- Clearing low bits keeps what stands above them. -/
theorem clearLow_div {k : Nat} (hm : m ≤ k) (hk : k ≤ 32) : (clearLow m w).toNat / 2 ^ k = w.toNat / 2 ^ k := by
  rw [clearLow, and_highMask_toNat w (hm.trans hk)]
  obtain ⟨j, rfl⟩ := Nat.exists_eq_add_of_le hm
  rw [Nat.pow_add, ← Nat.div_div_eq_div_mul, ← Nat.div_div_eq_div_mul, Nat.mul_div_cancel _ (Nat.two_pow_pos m)]

theorem opcode_clearLow (hm : m ≤ 29) : opcode (clearLow m w) = opcode w :=
  BitVec.eq_of_toNat_eq (by rw [opcode_toNat, opcode_toNat, clearLow_div w hm (by decide)])

theorem function_clearLow (hm : m ≤ 26) : function (clearLow m w) = function w :=
  BitVec.eq_of_toNat_eq (by rw [function_toNat, function_toNat, clearLow_div w hm (by decide)])

theorem fieldA_clearLow (hm : m ≤ 21) : fieldA (clearLow m w) = fieldA w :=
  Fin.ext (by rw [fieldA_val, fieldA_val, clearLow_div w hm (by decide)])

theorem fieldB_clearLow (hm : m ≤ 16) : fieldB (clearLow m w) = fieldB w :=
  Fin.ext (by rw [fieldB_val, fieldB_val, clearLow_div w hm (by decide)])

theorem fieldC_clearLow (hm : m ≤ 11) : fieldC (clearLow m w) = fieldC w :=
  Fin.ext (by rw [fieldC_val, fieldC_val, clearLow_div w hm (by decide)])

theorem clearLow_zero : clearLow 0 w = w :=
  BitVec.eq_of_toNat_eq (by simpa using clearLow_div w (le_refl 0) (by decide))

end

namespace Operands

variable (p : Operands) (w : Word)

theorem unread_le : p.unread ≤ 26 := by
  cases p <;> simp [unread]

/-- The bits a format does not read hold none of its operands. -/
theorem standIn_clearLow : p.StandIn (clearLow p.unread w) ↔ p.StandIn w := by
  cases p with
  | none => exact Iff.rfl
  | c | o | i => simp [unread, clearLow_zero]
  | r => simp [unread, StandIn, fieldA_clearLow, fieldB_clearLow, fieldC_clearLow]

variable {p w}

/-- Operands read from one word agree: both overlapping fields hold its bits 20-16. -/
theorem agree_of_standIn (h : p.StandIn w) : p.agree = true := by
  cases p with
  | none | c | i | r => rfl
  | o ra rb imm =>
    obtain ⟨-, rfl, rfl⟩ := h
    simp only [agree, ioOverlapOk, beq_iff_eq]
    apply Fin.ext
    rw [immOverlap_val, fieldImm21_toNat, fieldB_val]
    omega

/-- The encoding of the operands a word holds is the word with its unread bits cleared. -/
theorem word_of_standIn (h : p.StandIn w) : p.word (opcode w) (function w) = clearLow p.unread w := by
  have hw := w.isLt
  apply BitVec.eq_of_toNat_eq
  rw [clearLow, and_highMask_toNat w (p.unread_le.trans (by decide))]
  cases p with
  | none => rw [word, encodeBare_toNat, opcode_toNat, function_toNat, unread]; omega
  | c ra imm =>
    obtain ⟨rfl, rfl⟩ := h
    rw [word, encodeC_toNat, opcode_toNat, function_toNat, fieldA_val, fieldImm21_toNat, unread]; omega
  | o ra rb imm =>
    obtain ⟨rfl, -, rfl⟩ := h
    rw [word, encodeC_toNat, opcode_toNat, function_toNat, fieldA_val, fieldImm21_toNat, unread]; omega
  | i ra rb imm =>
    obtain ⟨rfl, rfl, rfl⟩ := h
    rw [word, encodeI_toNat, opcode_toNat, function_toNat, fieldA_val, fieldB_val, fieldImm16_toNat, unread]; omega
  | r ra rb rc =>
    obtain ⟨rfl, rfl, rfl⟩ := h
    rw [word, encodeR_toNat, opcode_toNat, function_toNat, fieldA_val, fieldB_val, fieldC_val, unread]; omega

end Operands

/-- Clearing the bits an instruction does not read does not change whether a word decodes to it. -/
theorem decodeWord_and_readMask {w : Word} {i : Instr} :
    decodeWord (w &&& readMask i) = .ok i ↔ decodeWord w = .ok i := by
  have hle := i.operands.unread_le
  rw [decodeWord_eq_ok_iff, decodeWord_eq_ok_iff, and_readMask, opcode_clearLow w (by omega), function_clearLow w hle,
    Operands.standIn_clearLow]

/-- Settles O18: the operands a word decodes to are its fields, and clearing the unread bits changes none of them. -/
theorem unreadBitsAreIgnored : Obligations.UnreadBitsAreIgnored := by
  intro w i h
  obtain ⟨hop, hfn, hst⟩ := decodeWord_eq_ok_iff.1 h
  refine ⟨?_, ?_, fun w' hw' => ?_⟩
  · rw [wellFormed_eq_agree, Operands.agree_of_standIn hst]
  · rw [encode_eq_word, ← hop, ← hfn, Operands.word_of_standIn hst, and_readMask]
  · rwa [← decodeWord_and_readMask, hw', decodeWord_and_readMask]

/-- Settles O19: the decoder evaluated on the eight words. -/
theorem writtenOutWordsDecode : Obligations.WrittenOutWordsDecode := by
  unfold Obligations.WrittenOutWordsDecode
  decide

end Sys2Proof

namespace Sys2Proof.Machine

/-! ### Illegal pairs (30_encoding R70) -/

section
variable {s : State} {w : Word}

/-- The word fetch reads is the big-endian word of the four bytes at the pc. -/
theorem fetch_of_wordAtPc (hsize : s.pc.toNat + 4 ≤ s.mem.size) (hw : w.toNat = wordAtPc s) : fetch s = .ok w := by
  rw [fetch_of_inBounds hsize, BitVec.eq_of_toNat_eq (hw.trans (Memory.load_word_toNat ..).symm)]

/-- A running machine whose fetched word does not decode takes the fault. -/
theorem step_of_decodeWord_error {e : DecodeError} (hrun : s.run = .running) (hw : fetch s = .ok w)
    (he : decodeWord w = .error e) : step s = .next (s.setFaulted (.illegalInstruction s.pc w)) := by
  simp [step, hrun, cycle, hw, runWord, he, raise]

end

/-- Settles O6: the decoder refuses the pairs of R70, and a step on a refused word takes the fault. -/
theorem illegalPairsRaiseIllegalInstruction : Obligations.IllegalPairsRaiseIllegalInstruction := by
  refine ⟨decodeWord_ok_iff_not_illegalPair, fun s w hrun hsize hw hpair => ?_⟩
  obtain ⟨e, he⟩ := decodeWord_of_illegalPair hpair
  exact step_of_decodeWord_error hrun (fetch_of_wordAtPc hsize hw) he

/-! ### Immediates (30_encoding R64 to R66) -/

/-- Settles O20: a field is the word's low bits, and its two's-complement reading is their extension. -/
theorem immediatesAreSignExtended : Obligations.ImmediatesAreSignExtended := by
  intro w
  have h20 : ((fieldImm21 w).setWidth 20).toNat = w.toNat % 2 ^ 20 := by
    rw [BitVec.toNat_setWidth, fieldImm21_toNat]; omega
  refine ⟨?_, ?_, ?_⟩
  · rw [imm16, ← extend_toNat, fieldImm16_toNat]
  · rw [imm21, ← extend_toNat, fieldImm21_toNat]
  · rw [imm21, ← extend_toNat, h20]

/-- The low 21 bits of a word are `rb` over its low 16 bits. -/
theorem fieldImm21_toNat_eq_rb (w : Word) : (fieldImm21 w).toNat = (fieldB w).val * 65536 + w.toNat % 65536 := by
  rw [fieldImm21_toNat, fieldB_val]; omega

/-- The sign bit of the 21 bits is the top bit of `rb`. -/
theorem imm21_eq_rb (w : Word) : imm21 .w21 (fieldImm21 w) =
    ((fieldB w).val : Int) * 65536 + (w.toNat % 65536 : Nat) - (if (fieldB w).val < 16 then 0 else 2 ^ 21) := by
  have himm := fieldImm21_toNat_eq_rb w
  rw [imm21, BitVec.toInt_eq_toNat_cond]
  split <;> split <;> omega

/-- Settles O21: the 21 bits are `rb` over the low 16, and `rb = 0` leaves the low 16. -/
theorem ioImmediateContainsRb : Obligations.IoImmediateContainsRb :=
  fun w => ⟨imm21_eq_rb w, fun hrb => by simp [imm21_eq_rb, hrb]⟩

end Sys2Proof.Machine

namespace Sys2Proof.Machine.Asm

/-! ### Packing (30_encoding R84, R85, R87) -/

section
variable {op fn : BitVec 3} {ra rb rc : Reg}

theorem pack_registers : pack op.toNat fn.toNat ra.val rb.val rc.val 0 = encodeR op fn ra rb rc := by
  rw [pack, or_fields_eq_add _ _ _ _ _ _ fn.isLt ra.isLt rb.isLt rc.isLt (by decide), encodeR, Nat.add_zero]

/-- The fields above the operands that differ by shape do not overlap. -/
theorem or_upper_fields_eq : op.toNat <<< 29 ||| fn.toNat <<< 26 ||| ra.val <<< 21 =
    (2 ^ 5 * (2 ^ 3 * op.toNat + fn.toNat) + ra.val) <<< 21 := by
  rw [shiftLeft_or_of_lt _ _ 3 26 fn.isLt, shiftLeft_or_of_lt _ _ 5 21 ra.isLt]

/-- An immediate of at most 16 bits stands beside `rb`. -/
theorem pack_imm16 {imm : Nat} (himm : imm < 2 ^ 16) :
    pack op.toNat fn.toNat ra.val rb.val 0 imm = encodeI op fn ra rb (BitVec.ofNat 16 imm) := by
  rw [pack, encodeI, or_upper_fields_eq, shiftLeft_or_of_lt _ rb.val 5 16 rb.isLt, Nat.zero_shiftLeft, Nat.or_zero,
    ← Nat.shiftLeft_add_eq_or_of_lt himm, Nat.shiftLeft_eq, BitVec.toNat_ofNat, Nat.mod_eq_of_lt himm]
  congr 1; ring

/-- An immediate of at most 21 bits stands beside `ra` where `rb` is r0. -/
theorem pack_imm21 {imm : Nat} (himm : imm < 2 ^ 21) :
    pack op.toNat fn.toNat ra.val 0 0 imm = encodeC op fn ra (BitVec.ofNat 21 imm) := by
  rw [pack, encodeC, or_upper_fields_eq, Nat.zero_shiftLeft, Nat.zero_shiftLeft, Nat.or_zero, Nat.or_zero,
    ← Nat.shiftLeft_add_eq_or_of_lt himm, Nat.shiftLeft_eq, BitVec.toNat_ofNat, Nat.mod_eq_of_lt himm]
  congr 1; ring

theorem pack_bare : pack op.toNat fn.toNat 0 0 0 0 = encodeBare op fn :=
  pack_imm21 (ra := 0) (by decide)

/-- The 16-bit contraction of any integer. -/
theorem pack_contract16 (v : Int) :
    pack op.toNat fn.toNat ra.val rb.val 0 (contract v 16) = encodeI op fn ra rb (BitVec.ofInt 16 v) := by
  rw [contract_eq_toNat_ofInt, pack_imm16 (BitVec.isLt _), BitVec.ofNat_toNat, BitVec.setWidth_eq]

/-- The 20-bit contraction of an integer that 20 bits hold unsigned is that integer. -/
theorem pack_contract20 {v : Int} (h0 : 0 ≤ v) (h20 : v < 2 ^ 20) :
    pack op.toNat fn.toNat ra.val 0 0 (contract v 20) = encodeC op fn ra (BitVec.ofInt 21 v) := by
  obtain ⟨n, rfl⟩ := Int.eq_ofNat_of_zero_le h0
  have hn : n < 2 ^ 20 := by exact_mod_cast h20
  have hc : contract n 20 = n := by rw [contract]; omega
  rw [hc, pack_imm21 (hn.trans (by decide)), BitVec.ofInt_natCast]

end

/-- Settles O23: one shape after the other. -/
theorem packingAgreesWithTheEncoder : Obligations.PackingAgreesWithTheEncoder :=
  fun _ _ _ _ _ v => ⟨pack_registers, pack_contract16 v, fun h0 h16 => pack_contract20 h0 (h16.trans (by decide))⟩

/-- The number 32 in a slot is the number 1 in the slot to its left, five bits up. -/
theorem or_shiftLeft_pc (left n : Nat) : left <<< (n + 5) ||| 32 <<< n = (left ||| 1) <<< (n + 5) ||| 0 <<< n := by
  have h32 : 32 <<< n = 1 <<< (n + 5) := by rw [Nat.add_comm, Nat.shiftLeft_add]; rfl
  rw [h32, ← Nat.shiftLeft_or_distrib, Nat.zero_shiftLeft, Nat.or_zero]

/-- Settles O24: each slot is five bits below the one to its left. -/
theorem pcAsAnOperandCorruptsTheWord : Obligations.PcAsAnOperandCorruptsTheWord := by
  intro op fn ra rb rc imm
  refine ⟨?_, ?_, ?_⟩ <;> unfold pack
  · rw [Nat.or_assoc (op <<< 29), or_shiftLeft_pc fn 21, ← Nat.or_assoc]
  · rw [Nat.or_assoc (_ ||| _) (ra <<< 21), or_shiftLeft_pc ra 16, ← Nat.or_assoc]
  · rw [Nat.or_assoc (_ ||| _) (rb <<< 16), or_shiftLeft_pc rb 11, ← Nat.or_assoc]

/-! ### Instruction statements (30_encoding R83 to R87, R90) -/

/-- The first pattern of a mnemonic has this shape and the numbers of this instruction. -/
def HasPattern (m : String) (shape : Shape) (i : Instr) : Prop :=
  patterns.find? (fun q => q.mnemonic = m.toList) = some ⟨m.toList, i.opcode.toNat, i.function.toNat, shape⟩


theorem bareForms_pattern : ∀ p ∈ bareForms, HasPattern p.1 .bare p.2 := by
  unfold HasPattern
  decide

theorem registerForms_pattern : ∀ p ∈ registerForms, HasPattern p.1 .regRegReg (p.2 0 0 0) := by
  unfold HasPattern
  decide

theorem immediateForms_pattern : ∀ p ∈ immediateForms, HasPattern p.1 .regRegImm16 (p.2 0 0 0) := by
  unfold HasPattern
  decide

theorem ioForms_pattern : ∀ p ∈ ioForms, HasPattern p.1 .regRegImm20 (p.2 0 0 0) := by
  unfold HasPattern
  decide

theorem sleep_pattern : HasPattern "sleep" .regImm20 (.sleep 0 0) := by
  unfold HasPattern
  decide

theorem encode_bareForms : ∀ p ∈ bareForms, encode p.2 = encodeBare p.2.opcode p.2.function := by
  intro p hp
  fin_cases hp <;> rfl

theorem encode_registerForms : ∀ p ∈ registerForms, ∀ ra rb rc,
    encode (p.2 ra rb rc) = encodeR (p.2 0 0 0).opcode (p.2 0 0 0).function ra rb rc := by
  intro p hp
  fin_cases hp <;> exact fun _ _ _ => rfl

theorem encode_immediateForms : ∀ p ∈ immediateForms, ∀ ra rb imm,
    encode (p.2 ra rb imm) = encodeI (p.2 0 0 0).opcode (p.2 0 0 0).function ra rb imm := by
  intro p hp
  fin_cases hp <;> exact fun _ _ _ => rfl

theorem encode_ioForms : ∀ p ∈ ioForms, ∀ ra rb imm,
    encode (p.2 ra rb imm) = encodeC (p.2 0 0 0).opcode (p.2 0 0 0).function ra imm := by
  intro p hp
  fin_cases hp <;> exact fun _ _ _ => rfl

/-- A statement whose operands fit the first pattern of its mnemonic is emitted as the packed word. -/
theorem emit_of_pattern {m : String} {shape : Shape} {i : Instr} {operands : List Text} {w : Word}
    (hp : HasPattern m shape i)
    (hw : packOperands ⟨m.toList, i.opcode.toNat, i.function.toNat, shape⟩ operands = some w) :
    emit (m.toList :: operands) = .ok (bytesOfWord w) :=
  emit_of_instructionWord (findSome_of_find hp hw)

/-- Settles O26: by shape, the first pattern of the mnemonic packs the operands into the encoder's word. -/
theorem statementsAssembleToTheirEncoding : Obligations.StatementsAssembleToTheirEncoding := by
  refine ⟨fun p hp => ?_, fun p hp ra rb rc => ?_, fun p hp ra rb tok v hv => ?_, fun p hp ra tok v hv h0 h16 => ?_,
    fun ra tok v hv h0 h20 => ?_⟩
  · refine emit_of_pattern (bareForms_pattern p hp) ?_
    simp only [packOperands, encode_bareForms p hp, pack_bare]
  · refine emit_of_pattern (registerForms_pattern p hp) ?_
    simp only [packOperands, registerOperand_regName, encode_registerForms p hp, pack_registers]
  · refine emit_of_pattern (immediateForms_pattern p hp) ?_
    simp only [packOperands, registerOperand_regName, hv, encode_immediateForms p hp, pack_contract16]
  · refine emit_of_pattern (ioForms_pattern p hp) ?_
    have hv20 : v < 2 ^ 20 := h16.trans (by decide)
    simp only [packOperands, registerOperand_regName, hv, encode_ioForms p hp, Fin.val_zero, pack_contract20 h0 hv20]
  · refine emit_of_pattern sleep_pattern ?_
    simp only [packOperands, registerOperand_regName, hv, pack_contract20 h0 h20]
    rfl

/-! ### Sizes (30_encoding R88, R91) -/

/-- An instruction statement begins with a mnemonic of the table. -/
theorem mnemonic_of_instructionWord {m : Text} {operands : List Text} {w : Word}
    (h : instructionWord (m :: operands) = some w) : ∃ p ∈ patterns, p.mnemonic = m := by
  obtain ⟨p, hp, hw⟩ := List.exists_of_findSome?_eq_some h
  refine ⟨p, hp, ?_⟩
  by_contra hne
  simp [hne] at hw

theorem isPlainName_mnemonic : ∀ p ∈ patterns, isPlainName p.mnemonic = true := by decide

/-- An instruction has the size of a word: a mnemonic alone is no literal. -/
theorem emittedSize_of_instructionWord {toks : List Text} {w : Word} (h : instructionWord toks = some w) :
    emittedSize toks = 4 := by
  match toks with
  | [] | _ :: _ :: _ => rfl
  | [tok] =>
    obtain ⟨p, hp, rfl⟩ := mnemonic_of_instructionWord h
    exact emittedSize_of_plain (isPlainName_mnemonic p hp)

/-- Raw data has the size of its literal, whose kinds both functions try in the same order. -/
theorem length_rawData {toks : List Text} {bs : List Byte} (h : rawData toks = some bs) :
    bs.length = emittedSize toks := by
  match toks with
  | [] | _ :: _ :: _ => cases h
  | [tok] =>
    cases hs : stringLiteral tok with
    | some string =>
      obtain rfl : string = bs := by simpa [rawData, hs] using h
      simp [emittedSize, hs]
    | none =>
      cases hc : charLiteral tok with
      | some c =>
        obtain ⟨-, rfl⟩ : c ≤ 255 ∧ [BitVec.ofNat 8 c] = bs := by simpa [rawData, hs, hc] using h
        simp [emittedSize, hs, hc]
      | none =>
        cases he : escapeLiteral tok with
        | some b =>
          obtain rfl : [b] = bs := by simpa [rawData, hs, hc, he] using h
          simp [emittedSize, hs, he]
        | none =>
          obtain ⟨v, -, rfl⟩ : ∃ v, numericLiteral tok = some v ∧ bytesOfWord (BitVec.ofNat 32 (contract v 32)) = bs := by
            simpa [rawData, hs, hc, he] using h
          simp [emittedSize, hs, hc, he, bytesOfWord]

theorem length_emit {toks : List Text} {bs : List Byte} (h : emit toks = .ok bs) : bs.length = emittedSize toks := by
  unfold emit at h
  split at h
  · cases h; exact (emittedSize_of_instructionWord ‹_›).symm
  · split at h
    · cases h; exact length_rawData ‹_›
    · cases h

/-- Settles O55: an instruction is emitted as a word and raw data as its literal. -/
theorem emittedSizeIsTheNumberOfBytes : Obligations.EmittedSizeIsTheNumberOfBytes :=
  fun _ _ => length_emit

/-! ### Labels (30_encoding R88, R89) -/

/-- The first declaration of a name is looked up as the offset it stands at. -/
theorem lookup_labelsFrom {before after : List Item} {name : Text} (hfirst : .label name ∉ before) (cur : Nat) :
    (labelsFrom cur (before ++ .label name :: after)).lookup name = some (cur + (before.map itemSize).sum) := by
  induction before generalizing cur with
  | nil => simp [labelsFrom]
  | cons item before ih =>
    obtain ⟨hne, hrest⟩ := not_or.1 (List.mem_cons.not.1 hfirst)
    cases item with
    | label other =>
      have hother : (name == other) = false := beq_eq_false_iff_ne.2 fun heq => hne (congrArg Item.label heq)
      simp [labelsFrom, List.lookup_cons, hother, ih hrest, itemSize]
    | statement toks => simp [labelsFrom, ih hrest, itemSize, Nat.add_assoc]

/-- The image of items has the length pass 1 counts for them: substitution keeps the sizes. -/
theorem length_emitAll {labels : List (Text × Nat)} (hplain : ∀ l ∈ labels, isPlainName l.1 = true) {items : List Item}
    {image : List Byte} (h : emitAll labels items = .ok image) : image.length = (items.map itemSize).sum := by
  induction items generalizing image with
  | nil => cases h; rfl
  | cons item items ih =>
    cases item with
    | label name => simpa [itemSize] using ih h
    | statement toks =>
      unfold emitAll at h
      split at h
      · cases h
      · split at h
        · cases h
        · cases h
          rename_i bs hbs _ rest hrest
          simp [itemSize, length_emit hbs, emittedSize_substitute hplain, ih hrest]

theorem substitute_of_lookup {labels : List (Text × Nat)} {name : Text} {n : Nat} (h : labels.lookup name = some n) :
    substitute labels name = Nat.toDigits 10 n := by
  simp [substitute, h]

/-- Settles O25: the label is looked up as the sizes before it, and those are the bytes before it in the image. -/
theorem labelsResolveToTheBytesBefore : Obligations.LabelsResolveToTheBytesBefore := by
  intro before after name hfirst
  have hlookup := lookup_labelsFrom (after := after) hfirst 0
  rw [Nat.zero_add] at hlookup
  refine ⟨hlookup, ?_⟩
  rintro labels image rfl hplain himage
  obtain ⟨front, back, rfl, hfront, hback⟩ := emitAll_append himage
  rw [← length_emitAll hplain hfront] at hlookup
  exact ⟨front, back, rfl, hfront, hback, hlookup, substitute_of_lookup hlookup⟩

end Sys2Proof.Machine.Asm

/-! The family 40_cycle: fetch and the step around the instruction (R100 to R102), what a step does to the host's streams
(R106), and when a running CORE takes no step (R107). -/

namespace Sys2Proof.Machine

/-! ### Fetch, and the step as its instruction (40_cycle R100 to R102) -/

section
variable {s : State}

/-- A running machine whose fetch fails takes the fault. -/
theorem step_of_fetch_error {f : Fault} (hrun : s.run = .running) (hf : fetch s = .error f) :
    step s = .next (s.setFaulted f) := by
  simp [step, hrun, cycle, hf, raise]

/-- The bounds check of fetch gives one verdict for both readings of the pc, in a memory of at most 2^30 bytes. -/
theorem fetch_bounds_iff_signed (hsize : s.mem.size ≤ 2 ^ 30) :
    s.pc.toNat + 4 ≤ s.mem.size ↔ 0 ≤ s.pc.toInt ∧ s.pc.toInt + 4 ≤ s.mem.size := by
  have hbounds : -2 ^ 31 - 2 ^ 20 ≤ s.pc.toInt ∧ s.pc.toInt < 2 ^ 31 + 2 ^ 20 := by
    simpa using toInt_add_bounds s.pc (off := 0) (by decide)
  have hpattern : (s.pc.toNat : Int) = s.pc.toInt % 2 ^ 32 := by
    rw [← to32_toNat, to32, BitVec.ofInt_toInt]
  exact (bounds_check_of_emod hbounds (by decide) hsize hpattern).1.symm

end

/-- Settles O4: the fetch reads the word at the pc, and a step on a word that decodes is the instruction's. -/
theorem stepRunsTheDecodedInstruction : Obligations.StepRunsTheDecodedInstruction :=
  fun _ _ _ hrun hsize hw hi => step_eq_exec hrun (fetch_of_wordAtPc hsize hw) hi

/-- Settles O5: fetch loads the word at the pc or fails its bounds check, and a failed fetch is taken as the fault. -/
theorem fetchReadsTheWordAtThePcOrFaults : Obligations.FetchReadsTheWordAtThePcOrFaults :=
  fun _ => ⟨fun hsize => ⟨_, fetch_of_inBounds hsize, Memory.load_word_toNat ..⟩,
    fun hsize hrun => step_of_fetch_error hrun (fetch_of_outOfBounds hsize),
    fetch_bounds_iff_signed⟩

/-! ### The host's streams (40_cycle R106) -/

section
variable {s t : State} {i : Instr}

/-- An instruction makes at most one device call, recorded at the end of the trace. -/
theorem Effect.events_cases (h : Effect i s t) : t.events = s.events ∨ ∃ e, t.events = s.events ++ [e] := by
  cases h with
  | emit e => exact .inr ⟨e, by simp⟩
  | fault | halt | advance | reg | jump | branch | store | input => exact .inl (by simp)

/-- An instruction leaves the input as it was, or takes the bytes of an `IN` from its front. -/
theorem Effect.exists_used_input (h : Effect i s t) : ∃ used, s.input = used ++ t.input := by
  cases h with
  | input _ bs _ _ _ htaken => exact ⟨bs.map .byte, by simpa using htaken⟩
  | fault | halt | advance | emit | reg | jump | branch | store => exact ⟨[], by simp⟩

end

/-- Settles O12: by the effect of the instruction; taking a fault touches neither stream. -/
theorem stepAppendsEventsAndConsumesInput : Obligations.StepAppendsEventsAndConsumesInput := by
  intro s t h
  rcases step_effect_or_fault h with ⟨_, heffect⟩ | ⟨f, rfl⟩
  · exact ⟨heffect.events_cases, heffect.exists_used_input⟩
  · exact ⟨.inl (State.setFaulted_events s f), [], rfl⟩

/-! ### When a running CORE takes no step (40_cycle R100, R107) -/

/-- A check both of whose outcomes answer a next state answers one. -/
theorem exists_next_ite {σ φ ρ : Type} {c : Prop} [Decidable c] {o o' : Host.Outcome σ φ ρ}
    (h : ∃ t, o = .next t) (h' : ∃ t, o' = .next t) : ∃ t, (if c then o else o') = .next t := by
  split
  · exact h
  · exact h'

section
variable (s : State)

/-- `IN` answers a next state in every case but one: its checks passed and the device has too little left. -/
theorem execIn_next_or_blocked (ra rb : Reg) (imm : BitVec 21) : (∃ t, execIn ra rb imm s = .next t) ∨
    (execIn ra rb imm s = .refused .blockedOnInput ∧ (s.input.length : Int) < inCount (s.reg ra) (s.reg rb)) := by
  simp only [execIn]
  split
  · exact .inl ⟨_, rfl⟩
  · split
    · exact .inl ⟨_, rfl⟩
    · split
      · split
        · exact .inl ⟨_, rfl⟩
        · exact .inl ⟨_, rfl⟩
        · have hlength := length_of_devIn_blocked ‹_›
          exact .inr ⟨rfl, by omega⟩
      · exact .inl ⟨_, rfl⟩

/-- Every instruction but `IN` answers a next state: it completes, jumps, or takes a fault where a check fails. -/
theorem exec_next_of_ne_in {i : Instr} (hi : ¬ ∃ ra rb imm, i = .in_ ra rb imm) : ∃ t, exec i s = .next t := by
  cases i with
  | in_ ra rb imm => exact absurd ⟨ra, rb, imm, rfl⟩ hi
  | halt | nop | outd | outb | outh | cl | j | jal
  | add | sub | and | or | xor | ls | rs | addi | subi | andi | ori | xori | lsi | rsi | mul => exact ⟨_, rfl⟩
  | sleep | outc | div | mod | beq | bne | blt | bge | lw | lb | lh | sw | sb | sh =>
    exact exists_next_ite ⟨_, rfl⟩ ⟨_, rfl⟩
  | out => exact exists_next_ite (exists_next_ite ⟨_, rfl⟩ ⟨_, rfl⟩) ⟨_, rfl⟩

end

/-- Settles O9: a failed fetch and an illegal word take a fault, and of the instructions only `IN` may answer no state. -/
theorem onlyInCanBlock : Obligations.OnlyInCanBlock := by
  intro s hrun
  cases hw : fetch s with
  | error f => exact .inl ⟨_, step_of_fetch_error hrun hw⟩
  | ok w =>
    cases hi : decodeWord w with
    | error e => exact .inl ⟨_, step_of_decodeWord_error hrun hw hi⟩
    | ok i =>
      rw [step_eq_exec hrun hw hi]
      by_cases hin : ∃ ra rb imm, i = .in_ ra rb imm
      · obtain ⟨ra, rb, imm, rfl⟩ := hin
        refine (execIn_next_or_blocked s ra rb imm).imp_right fun ⟨hblocked, hfew⟩ => ?_
        exact ⟨hblocked, w, ra, rb, imm, rfl, hi, hfew⟩
      · exact .inl (exec_next_of_ne_in s hin)

end Sys2Proof.Machine

/-! The family 41_ctl: `HALT` (R120), `NOP` (R121) and `SLEEP` (R122). -/

namespace Sys2Proof.Machine

section
variable {s t : State} {ra : Reg} {imm : BitVec 21}

/-- A negative duration: `SLEEP` takes its fault (41_ctl R122). -/
theorem execSleep_of_neg (h : (s.ioSum ra imm).toInt < 0) : execSleep ra imm s = raise (.ioArgumentFault s.pc) s :=
  if_pos h

/-- Any other duration: `SLEEP` calls the timer (41_ctl R122). -/
theorem execSleep_of_nonneg (h : 0 ≤ (s.ioSum ra imm).toInt) :
    execSleep ra imm s = complete (s.emit (.delay (s.ioSum ra imm).toInt.toNat)) :=
  if_neg (not_lt.2 h)

/-- A halted machine takes no step (41_ctl R120). -/
theorem step_ne_next_of_halted (h : s.run = .halted) : step s ≠ .next t := by
  simp [step_of_halted h]

end

/-- Settles O29: the duration is the model's sum of register and immediate, and its sign selects the case. -/
theorem sleepDelaysOrFaults : Obligations.SleepDelaysOrFaults := by
  intro s ra imm d hd
  obtain rfl : d = (s.ioSum ra imm).toInt := by rw [hd, State.ioSum_eq, to32]
  refine ⟨hasCode_of_tag (Laws.OpcodeBits.sleep ra imm) rfl (by decide), fun hneg => ?_, fun hnonneg => ?_⟩
  · exact execSleep_of_neg hneg
  · exact ⟨_, execSleep_of_nonneg hnonneg, onlyCalls_emit _⟩

/-- Settles O27: the state `HALT` completes in differs from `s` by the pc and by the run state, which admits no step. -/
theorem haltEntersHalted : Obligations.HaltEntersHalted := by
  intro s
  have hrun : s.setHalted.advance.run = .halted := s.setHalted_run
  have hregs : SameRegs s s.setHalted.advance := fun r => by simp
  exact ⟨hasCode_of_tag Laws.OpcodeBits.halt rfl (by decide), s.setHalted.advance, rfl, hrun, advanced_of_pc rfl, hregs,
    ⟨rfl, fun _ => rfl⟩, ⟨rfl, rfl⟩, rfl, fun _ => step_ne_next_of_halted hrun⟩

/-- Settles O28: `NOP` completes in the advanced state. -/
theorem nopOnlyAdvances : Obligations.NopOnlyAdvances :=
  fun s => ⟨hasCode_of_tag Laws.OpcodeBits.nop rfl (by decide), s.advance, rfl, sameRegs_advance, aluFrame_advance⟩

end Sys2Proof.Machine

/-! The family 42_io: `IN` (R131, R138), `OUT` (R132), `OUTD`, `OUTB` and `OUTH` (R133 to R135), `OUTC` (R136), `CL` (R137). -/

namespace Sys2Proof.Machine

/-! ### Checks and sums in the terms of the statements -/

/-- The bounds check of a length that is a difference of integers, without its truncation to `Nat` (20_memory R45). -/
theorem Memory.inBounds_toNat_iff {m : Memory} {A n : Int} (hn : 0 ≤ n) :
    m.InBounds A n.toNat ↔ 0 ≤ A ∧ A + n ≤ m.size := by
  rw [Memory.InBounds, Int.toNat_of_nonneg hn]

/-- The signed reading of the value `x + z` of an output (42_io R133, R136). -/
theorem State.ioSum_toInt (s : State) (ra : Reg) (imm : BitVec 21) :
    (s.ioSum ra imm).toInt = (BitVec.ofInt 32 ((s.reg ra).toInt + imm21 s.cfg.ctlIoImmWidth imm)).toInt :=
  congrArg BitVec.toInt (s.ioSum_eq ra imm)

/-! ### `IN`: one equation for each case, in the order of the checks (42_io R131, R138) -/

section
variable {s : State} {ra rb : Reg} {imm : BitVec 21}

/-- A negative count: `IN` takes its fault. -/
theorem execIn_of_neg (h : inCount (s.reg ra) (s.reg rb) < 0) :
    execIn ra rb imm s = raise (.ioArgumentFault s.pc) s :=
  if_pos h

/-- A zero count: `IN` reads nothing. -/
theorem execIn_of_zero (h : inCount (s.reg ra) (s.reg rb) = 0) : execIn ra rb imm s = complete s := by
  simp [execIn, h]

section
variable (hpos : 0 < inCount (s.reg ra) (s.reg rb))
include hpos

/-- A range that leaves memory: `IN` takes the fault before it asks the device. -/
theorem execIn_of_outOfBounds (h : ¬ s.mem.InBounds (s.ioAddr ra imm) (inCount (s.reg ra) (s.reg rb)).toNat) :
    execIn ra rb imm s =
      raise (.memoryFault s.pc (s.ioAddr ra imm) (inCount (s.reg ra) (s.reg rb)).toNat) s := by
  rw [execIn, if_neg hpos.not_gt, if_neg hpos.ne', if_neg h]

variable (hbounds : s.mem.InBounds (s.ioAddr ra imm) (inCount (s.reg ra) (s.reg rb)).toNat)
include hbounds

/-- The device delivers: `IN` writes the bytes and consumes them. -/
theorem execIn_of_bytes {bs : List Byte} {rest : List InputItem}
    (h : devIn (inCount (s.reg ra) (s.reg rb)).toNat s.input = .bytes bs rest) :
    execIn ra rb imm s = complete ((s.setMem (s.mem.writeBytes (s.ioAddr ra imm).toNat bs)).setInput rest) := by
  rw [execIn, if_neg hpos.not_gt, if_neg hpos.ne', if_pos hbounds, h]

/-- The device reports an error: `IN` takes its fault. -/
theorem execIn_of_inputError (h : devIn (inCount (s.reg ra) (s.reg rb)).toNat s.input = .inputError) :
    execIn ra rb imm s = raise (.inputFormatError s.pc) s := by
  rw [execIn, if_neg hpos.not_gt, if_neg hpos.ne', if_pos hbounds, h]

/-- The device has too little left: `IN` blocks. -/
theorem execIn_of_blocked (h : devIn (inCount (s.reg ra) (s.reg rb)).toNat s.input = .blocked) :
    execIn ra rb imm s = .refused .blockedOnInput := by
  rw [execIn, if_neg hpos.not_gt, if_neg hpos.ne', if_pos hbounds, h]

end

end

/-- A range write inside memory changes the bytes of the range and no others. -/
theorem onlyBytes_of_mem {s t : State} {a : Nat} {bs : List Byte} (hwf : s.mem.wf = true)
    (hsize : a + bs.length ≤ s.mem.size) (h : t.mem = s.mem.writeBytes a bs) : OnlyBytes a bs s t := by
  rw [OnlyBytes, h]
  exact ⟨s.mem.writeBytes_size a bs, Memory.readByte_writeBytes_inside hwf hsize,
    fun _ => s.mem.readByte_writeBytes_outside⟩

/-- Settles O30: the count is the number of bytes given, so the device delivers exactly them, and `IN` writes them. -/
theorem inWritesTheInputBytes : Obligations.InWritesTheInputBytes := by
  intro s ra rb imm bs rest hwf hne hcount hlow hhigh hinput
  have hn : inCount (s.reg ra) (s.reg rb) = bs.length := hcount.symm
  have hpos : 0 < inCount (s.reg ra) (s.reg rb) := by simpa [hn, List.length_pos_iff] using hne
  have hbounds := (Memory.inBounds_toNat_iff hpos.le).2 ⟨hlow, hn ▸ hhigh⟩
  have hdev : devIn (inCount (s.reg ra) (s.reg rb)).toNat s.input = .bytes bs rest :=
    devIn_eq_bytes.2 ⟨by simp [hn], hinput⟩
  exact ⟨hasCode_of_tag (Laws.OpcodeBits.in_ ra rb imm) rfl (by decide), _, execIn_of_bytes hpos hbounds hdev,
    onlyBytes_of_mem hwf (by omega) rfl, rfl, rfl, fun r => by simp, advanced_of_pc rfl, rfl, rfl⟩

/-- Settles O31: each clause is one of the cases of `IN`; with the checks passed, the input selects the case. -/
theorem inChecksBeforeItReads : Obligations.InChecksBeforeItReads := by
  intro s ra rb imm n hn
  obtain rfl : n = inCount (s.reg ra) (s.reg rb) := hn
  refine ⟨fun hneg => ?negative, fun hzero => ?zero, fun hpos hout => ?outOfBounds, fun hpos hlow hhigh => ?inBounds⟩
  case negative => exact execIn_of_neg hneg
  case zero => exact ⟨_, execIn_of_zero hzero, sameRegs_advance, aluFrame_advance⟩
  case outOfBounds => exact execIn_of_outOfBounds hpos (mt (Memory.inBounds_toNat_iff hpos.le).1 hout)
  case inBounds =>
    have hbounds := (Memory.inBounds_toNat_iff hpos.le).2 ⟨hlow, hhigh⟩
    refine ⟨fun bs rest hfew hinput => ?_, fun bs hfew hinput => ?_⟩
    · exact execIn_of_inputError hpos hbounds (hinput ▸ devIn_inputError (by omega))
    · exact execIn_of_blocked hpos hbounds (hinput ▸ devIn_blocked (by omega))

/-! ### `OUT` (42_io R132) -/

section
variable {s : State} {ra rb : Reg} {imm : BitVec 21}

/-- An empty range: `OUT` writes nothing. -/
theorem execOut_of_le (h : (s.reg rb).toInt ≤ s.ioAddr ra imm) : execOut ra rb imm s = complete s :=
  if_neg (not_lt.2 h)

variable (hlt : s.ioAddr ra imm < (s.reg rb).toInt)
include hlt

/-- A range that leaves memory: `OUT` takes the fault. -/
theorem execOut_of_outOfBounds
    (h : ¬ s.mem.InBounds (s.ioAddr ra imm) ((s.reg rb).toInt - s.ioAddr ra imm).toNat) :
    execOut ra rb imm s =
      raise (.memoryFault s.pc (s.ioAddr ra imm) ((s.reg rb).toInt - s.ioAddr ra imm).toNat) s := by
  rw [execOut, if_pos hlt, if_neg h]

/-- A range inside memory: `OUT` passes its bytes to the output device. -/
theorem execOut_of_inBounds
    (h : s.mem.InBounds (s.ioAddr ra imm) ((s.reg rb).toInt - s.ioAddr ra imm).toNat) :
    execOut ra rb imm s = complete (s.emit (.out
      (s.mem.readBytes (s.ioAddr ra imm).toNat ((s.reg rb).toInt - s.ioAddr ra imm).toNat))) := by
  rw [execOut, if_pos hlt, if_pos h]

/-- The check of a range given by its two ends (20_memory R45). -/
theorem outRange_inBounds_iff : s.mem.InBounds (s.ioAddr ra imm) ((s.reg rb).toInt - s.ioAddr ra imm).toNat ↔
    0 ≤ s.ioAddr ra imm ∧ (s.reg rb).toInt ≤ s.mem.size := by
  rw [Memory.inBounds_toNat_iff (by omega), add_sub_cancel]

end

/-- Settles O32: the order of the two ends and the bounds check select the case. -/
theorem outWritesTheByteRange : Obligations.OutWritesTheByteRange := by
  intro s ra rb imm
  refine ⟨hasCode_of_tag (Laws.OpcodeBits.out ra rb imm) rfl (by decide), fun hle => ?empty,
    fun hlt hout => ?outOfBounds, fun hlow hlt hhigh => ?inBounds⟩
  case empty => exact ⟨_, execOut_of_le hle, sameRegs_advance, aluFrame_advance⟩
  case outOfBounds => exact execOut_of_outOfBounds hlt (mt (outRange_inBounds_iff hlt).1 hout)
  case inBounds =>
    have hbounds := (outRange_inBounds_iff hlt).2 ⟨hlow, hhigh⟩
    refine ⟨_, _, execOut_of_inBounds hlt hbounds, onlyCalls_emit _, ?_, fun k => Memory.readBytes_getElem _ _ _ k⟩
    rw [Memory.readBytes_length, Int.toNat_of_nonneg (by omega)]

/-! ### The number outputs (42_io R133 to R135) -/

/-- Settles O33: the three instructions differ in the kind of number alone. -/
theorem numberOutputsPassTheSum : Obligations.NumberOutputsPassTheSum := by
  intro s ra rb imm
  have houtNumber (kind : NumKind) :
      ∃ t, outNumber kind ra imm s = .next t ∧ OnlyCalls (.outNum kind (s.ioSum ra imm)) s t :=
    ⟨_, rfl, onlyCalls_emit _⟩
  exact ⟨s.ioSum ra imm, add_to32_toNat _ _, hasCode_of_tag (Laws.OpcodeBits.outd ra rb imm) rfl (by decide),
    hasCode_of_tag (Laws.OpcodeBits.outb ra rb imm) rfl (by decide),
    hasCode_of_tag (Laws.OpcodeBits.outh ra rb imm) rfl (by decide), houtNumber .dec, houtNumber .bin, houtNumber .hex⟩

/-- The model's decimal text is the library's decimal numeral. -/
theorem decimalText_eq_toString (v : Word) : decimalText v = (toString v.toInt).toList := by
  rw [decimalText, Int.toString_eq_repr, Int.repr_eq_if]
  by_cases hneg : v.toInt < 0
  · have habs : (-v.toInt).toNat = v.toInt.natAbs := by omega
    rw [if_pos hneg, if_neg (not_le.2 hneg), String.toList_append, Nat.toList_repr, habs]
    rfl
  · have habs : v.toInt.toNat = v.toInt.natAbs := by omega
    rw [if_neg hneg, if_pos (not_lt.1 hneg), Nat.toList_repr, habs]

/-- A device call prints its rendering after what was printed before (log 15). -/
theorem State.printed_emit_advance (s : State) (e : Event) : (s.emit e).advance.printed = s.printed ++ render e := by
  simp [State.printed]

/-- Settles O54: what `OUTD` adds to the printed text is the rendering of its one event. -/
theorem outdPrintsTheSignedDecimal : Obligations.OutdPrintsTheSignedDecimal := by
  intro s ra rb imm d hd
  obtain rfl : d = (s.ioSum ra imm).toInt := hd.trans (s.ioSum_toInt ra imm).symm
  refine ⟨_, rfl, ?_⟩
  rw [State.printed_emit_advance, render, asciiBytes, decimalText_eq_toString]

/-! ### `OUTC` and `CL` (42_io R136, R137) -/

section
variable {s : State} {ra : Reg} {imm : BitVec 21}

/-- A value that is no code point: `OUTC` takes its fault. -/
theorem execOutc_of_not_codePoint (h : (s.ioSum ra imm).toInt < 0 ∨ maxCodePoint < (s.ioSum ra imm).toInt) :
    execOutc ra imm s = raise (.ioArgumentFault s.pc) s :=
  if_pos h

/-- A code point: `OUTC` passes it to the output device. -/
theorem execOutc_of_codePoint (hlow : 0 ≤ (s.ioSum ra imm).toInt) (hhigh : (s.ioSum ra imm).toInt ≤ maxCodePoint) :
    execOutc ra imm s = complete (s.emit (.outChar (s.ioSum ra imm).toInt.toNat)) :=
  if_neg (not_or.2 ⟨hlow.not_gt, hhigh.not_gt⟩)

end

/-- Settles O34: whether the model's sum of register and immediate is a code point selects the case. -/
theorem outcWritesTheCodePointOrFaults : Obligations.OutcWritesTheCodePointOrFaults := by
  intro s ra rb imm c hc
  obtain rfl : c = (s.ioSum ra imm).toInt := hc.trans (s.ioSum_toInt ra imm).symm
  refine ⟨hasCode_of_tag (Laws.OpcodeBits.outc ra rb imm) rfl (by decide), fun hnone => ?_, fun hlow hhigh => ?_⟩
  · exact execOutc_of_not_codePoint hnone
  · exact ⟨_, execOutc_of_codePoint hlow hhigh, onlyCalls_emit _⟩

/-- Settles O35: the one effect of `CL` besides the advance is its event. -/
theorem clClearsTheOutputDevice : Obligations.ClClearsTheOutputDevice :=
  fun _ => ⟨hasCode_of_tag Laws.OpcodeBits.cl rfl (by decide), _, rfl, onlyCalls_emit _⟩

end Sys2Proof.Machine

/-! The family 43_alu: every `ALUR` and `ALUI` instruction writes one register and advances; what it writes, as a number
modulo 2^32 (R150, R151, R157, R158, and the shifts R155, R156, R162, R163) or bit by bit (R152 to R154, R159 to R161). -/

namespace Sys2Proof.Machine

/-! ### The write with which an ALU instruction ends (40_cycle R102, R103) -/

section
variable {s : State} {r : Reg} {v : Word}

/-- A completing write of a word whose value is `n` modulo 2^32. -/
theorem completeWith_onlyRegInt {n : Int} (hv : (v.toNat : Int) = n % 2 ^ 32) :
    ∃ t, completeWith r v s = .next t ∧ OnlyRegInt r n s t ∧ AluFrame s t :=
  ⟨_, rfl, onlyRegInt_of_onlyReg (onlyReg_setReg r v) hv, aluFrame_setReg r v⟩

/-- A completing write of a word whose bits are given by `bit`. -/
theorem completeWith_onlyReg {bit : Nat → Bool} (hv : ∀ k, v.getLsbD k = bit k) :
    ∃ t w, completeWith r v s = .next t ∧ OnlyReg r w s t ∧ AluFrame s t ∧ ∀ k, w.getLsbD k = bit k :=
  ⟨_, v, rfl, onlyReg_setReg r v, aluFrame_setReg r v, hv⟩

end

/-! ### Sums and differences modulo 2^32 (43_alu R150, R151, R157, R158) -/

theorem word_add_toNat (a b : Word) : ((a + b).toNat : Int) = ((a.toNat : Int) + b.toNat) % 2 ^ 32 := by
  rw [BitVec.toNat_add]; norm_cast

theorem word_sub_toNat (a b : Word) : ((a - b).toNat : Int) = ((a.toNat : Int) - b.toNat) % 2 ^ 32 := by
  rw [BitVec.toNat_sub]; omega

/-- The word of an immediate is its sign extension modulo 2^32. -/
theorem imm16Word_toNat (imm : BitVec 16) : ((imm16Word imm).toNat : Int) = extend imm.toNat 16 % 2 ^ 32 := by
  rw [imm16Word_eq, to32_toNat, extend_toNat, imm16]

/-- Settles O37: the result is the machine's sum or difference of two words. -/
theorem addAndSubWrapModulo : Obligations.AddAndSubWrapModulo := fun _ ra rb rc =>
  ⟨hasCode_of_tag (Laws.OpcodeBits.add ra rb rc) rfl (by decide),
    hasCode_of_tag (Laws.OpcodeBits.sub ra rb rc) rfl (by decide),
    completeWith_onlyRegInt (word_add_toNat _ _), completeWith_onlyRegInt (word_sub_toNat _ _)⟩

/-- Settles O38: the second operand is the sign-extended immediate modulo 2^32, and the operation is taken modulo 2^32
again. -/
theorem addiAndSubiWrapModulo : Obligations.AddiAndSubiWrapModulo := by
  intro s ra rb imm
  refine ⟨hasCode_of_tag (Laws.OpcodeBits.addi ra rb imm) rfl (by decide),
    hasCode_of_tag (Laws.OpcodeBits.subi ra rb imm) rfl (by decide), completeWith_onlyRegInt ?_,
    completeWith_onlyRegInt ?_⟩
  · rw [word_add_toNat, imm16Word_toNat, Int.add_emod_emod]
  · rw [word_sub_toNat, imm16Word_toNat, Int.sub_emod_emod]

/-! ### Bitwise results (43_alu R152 to R154, R159 to R161) -/

/-- Settles O39: the operations on words act bit by bit. -/
theorem bitwiseRegisterResults : Obligations.BitwiseRegisterResults := fun _ ra rb rc =>
  ⟨hasCode_of_tag (Laws.OpcodeBits.and ra rb rc) rfl (by decide),
    hasCode_of_tag (Laws.OpcodeBits.or ra rb rc) rfl (by decide),
    hasCode_of_tag (Laws.OpcodeBits.xor ra rb rc) rfl (by decide),
    completeWith_onlyReg fun _ => BitVec.getLsbD_and, completeWith_onlyReg fun _ => BitVec.getLsbD_or,
    completeWith_onlyReg fun _ => BitVec.getLsbD_xor⟩

/-- The word of an immediate repeats the immediate's bit 15 above it. -/
theorem imm16Word_getLsbD (imm : BitVec 16) {k : Nat} (hk : k < 32) :
    (imm16Word imm).getLsbD k = imm.getLsbD (min k 15) := by
  rw [imm16Word, BitVec.getLsbD_signExtend]
  by_cases hlow : k < 16
  · have hmin : min k 15 = k := by omega
    simp [hk, hlow, hmin]
  · have hmin : min k 15 = 15 := by omega
    simp [hk, hlow, hmin, BitVec.msb_eq_getLsbD_last]

/-- Settles O40: the second operand is the word of the immediate, and the operations on words act bit by bit. -/
theorem bitwiseImmediateResults : Obligations.BitwiseImmediateResults := fun _ ra rb imm =>
  ⟨imm16Word imm, fun _ hk => imm16Word_getLsbD imm hk,
    hasCode_of_tag (Laws.OpcodeBits.andi ra rb imm) rfl (by decide),
    hasCode_of_tag (Laws.OpcodeBits.ori ra rb imm) rfl (by decide),
    hasCode_of_tag (Laws.OpcodeBits.xori ra rb imm) rfl (by decide),
    completeWith_onlyReg fun _ => BitVec.getLsbD_and, completeWith_onlyReg fun _ => BitVec.getLsbD_or,
    completeWith_onlyReg fun _ => BitVec.getLsbD_xor⟩

/-! ### Logical shifts (43_alu R155, R156, R162, R163) -/

section
variable {rule : Config.ShiftRule} {b : Word} {n : Nat}

/-- The amount the two values of `shiftRule` give (92 D7). -/
theorem shiftAmount_eq (hwhole : rule = .wholeAmount → n = b.toNat) (hlow : rule = .lowFiveBits → n = b.toNat % 32) :
    shiftAmount rule b = n := by
  cases rule with
  | wholeAmount => exact (hwhole rfl).symm
  | lowFiveBits => exact (hlow rfl).symm

/-- A left shift multiplies by a power of two modulo 2^32. -/
theorem shiftLeft_toNat (a : Word) (hn : shiftAmount rule b = n) :
    ((shiftLeft rule a b).toNat : Int) = (if 32 ≤ n then 0 else (a.toNat : Int) * 2 ^ n) % 2 ^ 32 := by
  rw [shiftLeft, hn]
  split
  · rfl
  · rw [BitVec.toNat_shiftLeft, Nat.shiftLeft_eq]; norm_cast

/-- A right shift divides by a power of two, and the quotient fits 32 bits. -/
theorem shiftRight_toNat (a : Word) (hn : shiftAmount rule b = n) :
    ((shiftRight rule a b).toNat : Int) = (if 32 ≤ n then 0 else ((a.toNat / 2 ^ n : Nat) : Int)) % 2 ^ 32 := by
  rw [shiftRight, hn]
  split
  · rfl
  · have hquot : a.toNat / 2 ^ n < 2 ^ 32 := (Nat.div_le_self _ _).trans_lt a.isLt
    rw [BitVec.toNat_ushiftRight, Nat.shiftRight_eq_div_pow]
    exact_mod_cast (Nat.mod_eq_of_lt hquot).symm

end

/-- Settles O41: the amount is that of the rule, read from x[rc]. -/
theorem registerShiftsAreLogical : Obligations.RegisterShiftsAreLogical := fun _ ra rb rc _ hwhole hlow =>
  ⟨hasCode_of_tag (Laws.OpcodeBits.ls ra rb rc) rfl (by decide),
    hasCode_of_tag (Laws.OpcodeBits.rs ra rb rc) rfl (by decide),
    completeWith_onlyRegInt (shiftLeft_toNat _ (shiftAmount_eq hwhole hlow)),
    completeWith_onlyRegInt (shiftRight_toNat _ (shiftAmount_eq hwhole hlow))⟩

/-- Settles O42: the amount is that of the rule, read from the word of the immediate; its low 5 bits are those
of the integer, as 32 divides 2^32. -/
theorem immediateShiftsAreLogical : Obligations.ImmediateShiftsAreLogical := by
  intro s ra rb imm n hwhole hlow
  have hword := imm16Word_toNat imm
  have hn : shiftAmount s.cfg.shiftRule (imm16Word imm) = n :=
    shiftAmount_eq (fun hrule => by specialize hwhole hrule; omega) (fun hrule => by specialize hlow hrule; omega)
  exact ⟨hasCode_of_tag (Laws.OpcodeBits.lsi ra rb imm) rfl (by decide),
    hasCode_of_tag (Laws.OpcodeBits.rsi ra rb imm) rfl (by decide),
    completeWith_onlyRegInt (shiftLeft_toNat _ hn), completeWith_onlyRegInt (shiftRight_toNat _ hn)⟩

end Sys2Proof.Machine

/-! The family 44_md: `MUL` (R180), `DIV` (R181) and `MOD` (R182), and the size and the sign of the remainder (R183). -/

namespace Sys2Proof.Machine

/-! ### `MUL` (44_md R180), and products of contractions -/

/-- A word is the contraction of its signed reading. -/
theorem to32_of_toInt (a : Word) : to32 a.toInt = a :=
  BitVec.ofInt_toInt

theorem to32_mul (i j : Int) : to32 (i * j) = to32 i * to32 j :=
  BitVec.ofInt_mul i j

/-- The machine's product is that of the signed readings modulo 2^32. -/
theorem word_mul_toNat (a b : Word) : ((a * b).toNat : Int) = a.toInt * b.toInt % 2 ^ 32 := by
  rw [← to32_toNat, to32_mul, to32_of_toInt, to32_of_toInt]

/-- Settles O43: the machine's product of two words, read as the product of signed operands. -/
theorem mulWritesTheLowProduct : Obligations.MulWritesTheLowProduct := fun _ ra rb rc =>
  ⟨hasCode_of_tag (Laws.OpcodeBits.mul ra rb rc) rfl (by decide), completeWith_onlyRegInt (word_mul_toNat _ _)⟩

/-! ### The common form of `DIV` and `MOD` (44_md R181, R182) -/

section
variable {s : State} {f : Word → Word → Word} {ra rb rc : Reg}

theorem divide_of_zero (h : s.reg rc = 0) : divide f ra rb rc s = raise (.divideByZero s.pc) s :=
  if_pos h

/-- With a divisor that is not 0 the result is written, here the contraction of an integer `n`. -/
theorem divide_onlyRegInt {n : Int} (h : s.reg rc ≠ 0) (hn : f (s.reg rb) (s.reg rc) = to32 n) :
    ∃ t, divide f ra rb rc s = .next t ∧ OnlyRegInt ra n s t ∧ AluFrame s t := by
  rw [divide, if_neg h, hn]
  exact completeWith_onlyRegInt (to32_toNat n)

end

/-- Settles O44: `DIV` is the common form with the truncated quotient. -/
theorem divTruncatesTowardZero : Obligations.DivTruncatesTowardZero := fun _ ra rb rc =>
  ⟨hasCode_of_tag (Laws.OpcodeBits.div ra rb rc) rfl (by decide), divide_of_zero, fun hne => divide_onlyRegInt hne rfl⟩

/-! ### The remainder as an integer (44_md R182, R183) -/

/-- The remainder of the integer division that `rule` names, before it is contracted to a register. -/
def signedRemainder : Config.ModRule → Int → Int → Int
  | .truncated => Int.tmod
  | .floored => Int.fmod

theorem remainder_eq (rule : Config.ModRule) (a b : Word) :
    remainder rule a b = to32 (signedRemainder rule a.toInt b.toInt) := by
  cases rule with
  | truncated => rw [remainder, signedRemainder, Int.tmod_def]
  | floored => rw [remainder, signedRemainder, Int.fmod_def]

/-- Settles O45: `MOD` is the common form with the remainder of the rule. -/
theorem modFollowsModRule : Obligations.ModFollowsModRule := fun _ ra rb rc =>
  ⟨hasCode_of_tag (Laws.OpcodeBits.mod ra rb rc) rfl (by decide), divide_of_zero,
    fun hne hrule => divide_onlyRegInt hne (by rw [remainder_eq, hrule, signedRemainder]),
    fun hne hrule => divide_onlyRegInt hne (by rw [remainder_eq, hrule, signedRemainder])⟩

section
variable {a b : Int}

theorem tmod_nonpos_of_nonpos (ha : a ≤ 0) : a.tmod b ≤ 0 := by
  have := Int.tmod_nonneg b (neg_nonneg.2 ha)
  rwa [Int.neg_tmod, neg_nonneg] at this

/-- Floored division by a negative divisor leaves a remainder between the divisor and 0. -/
theorem fmod_bounds_of_neg (hb : b < 0) : b < a.fmod b ∧ a.fmod b ≤ 0 :=
  ((Int.fdiv_fmod_unique' hb).1 ⟨rfl, rfl⟩).2

/-- Under either rule the remainder is smaller than the divisor in magnitude. -/
theorem abs_signedRemainder_lt (rule : Config.ModRule) (hb : b ≠ 0) : |signedRemainder rule a b| < |b| := by
  cases rule with
  | truncated =>
    rw [signedRemainder, Int.abs_eq_natAbs, Int.abs_eq_natAbs, Int.natAbs_tmod]
    exact_mod_cast Nat.mod_lt _ (Int.natAbs_pos.2 hb)
  | floored =>
    rw [signedRemainder]
    obtain hneg | hpos := hb.lt_or_gt
    · obtain ⟨hlow, hhigh⟩ := fmod_bounds_of_neg (a := a) hneg
      rwa [abs_of_nonpos hhigh, abs_of_neg hneg, neg_lt_neg_iff]
    · rw [abs_of_nonneg (Int.fmod_nonneg_of_pos a hpos), abs_of_pos hpos]
      exact Int.fmod_lt_of_pos a hpos

/-- The two rules agree for operands of the same sign and for an exact division. -/
theorem tmod_eq_fmod_of_sameSign_or_exact (h : (0 ≤ a ∧ 0 < b) ∨ (a ≤ 0 ∧ b < 0) ∨ a.tmod b = 0) :
    a.tmod b = a.fmod b := by
  rcases h with ⟨ha, hb⟩ | ⟨ha, hb⟩ | hexact
  · exact (Int.fmod_eq_tmod_of_nonneg ha hb.le).symm
  · have hneg := Int.fmod_eq_tmod_of_nonneg (neg_nonneg.2 ha) (neg_nonneg.2 hb.le)
    rw [Int.neg_fmod_neg, Int.neg_tmod, Int.tmod_neg] at hneg
    exact (neg_inj.1 hneg).symm
  · rw [hexact, Int.fmod_eq_zero_of_dvd (Int.dvd_of_tmod_eq_zero hexact)]

end

/-! ### The remainder as a word -/

theorem toInt_ne_zero {b : Word} (h : b ≠ 0) : b.toInt ≠ 0 :=
  BitVec.toInt_ne.2 h

/-- A remainder is smaller than its divisor, so its contraction to a register loses nothing. -/
theorem remainder_toInt (rule : Config.ModRule) (a : Word) {b : Word} (h : b ≠ 0) :
    (remainder rule a b).toInt = signedRemainder rule a.toInt b.toInt := by
  obtain ⟨hlow, hhigh⟩ := abs_lt.1 (abs_signedRemainder_lt (a := a.toInt) rule (toInt_ne_zero h))
  have hdivisor : |b.toInt| ≤ 2 ^ 31 := abs_le.2 ⟨b.le_toInt, b.toInt_lt.le⟩
  rw [remainder_eq, to32_toInt (by omega) (by omega)]

/-- The truncated remainder completes the quotient of `DIV`; where the quotient overflows, modulo 2^32. -/
theorem quotient_mul_add_remainder (a b : Word) : quotient a b * b + remainder .truncated a b = a :=
  calc quotient a b * b + remainder .truncated a b
      = to32 (a.toInt.tdiv b.toInt) * to32 b.toInt + to32 (a.toInt.tmod b.toInt) := by
        rw [remainder_eq, signedRemainder, to32_of_toInt, quotient]
    _ = to32 (a.toInt.tdiv b.toInt * b.toInt + a.toInt.tmod b.toInt) := by
        rw [← to32_mul]; exact (BitVec.ofInt_add _ _).symm
    _ = a := by rw [Int.tdiv_mul_add_tmod, to32_of_toInt]

/-- Settles O46: as the remainder's signed reading is the integer remainder, each clause is that of integer division. -/
theorem remainderSizeAndSign : Obligations.RemainderSizeAndSign := by
  intro a b hb
  have htrunc : (remainder .truncated a b).toInt = a.toInt.tmod b.toInt := remainder_toInt .truncated a hb
  have hfloor : (remainder .floored a b).toInt = a.toInt.fmod b.toInt := remainder_toInt .floored a hb
  refine ⟨fun rule => ?magnitude, fun ha => ?truncNonneg, fun ha => ?truncNonpos, fun hpos => ?floorNonneg,
    fun hneg => ?floorNonpos, quotient_mul_add_remainder a b, fun h => ?agree⟩
  case magnitude => exact remainder_toInt rule a hb ▸ abs_signedRemainder_lt rule (toInt_ne_zero hb)
  case truncNonneg => exact htrunc ▸ Int.tmod_nonneg _ ha
  case truncNonpos => exact htrunc ▸ tmod_nonpos_of_nonpos ha
  case floorNonneg => exact hfloor ▸ Int.fmod_nonneg_of_pos _ hpos
  case floorNonpos => exact hfloor ▸ (fmod_bounds_of_neg hneg).2
  case agree =>
    have hexact : remainder .truncated a b = 0 → a.toInt.tmod b.toInt = 0 := fun hzero => by simp [← htrunc, hzero]
    rw [remainder_eq, remainder_eq, signedRemainder, signedRemainder,
      tmod_eq_fmod_of_sameSign_or_exact (h.imp_right (Or.imp_right hexact))]

end Sys2Proof.Machine

/-! The family 45_jump: `J` and `JAL` link, and then read the base and jump (R190 to R192). -/

namespace Sys2Proof.Machine

/-- A register read after a write gives the written word exactly where the write is to that register and not discarded
(10_state R21); so the base of a jump is read (45_jump R190). -/
theorem State.reg_setReg_eq_ite (s : State) (ra rb : Reg) (v : Word) :
    (s.setReg ra v).reg rb = if rb = ra ∧ ra ≠ 0 then v else s.reg rb := by
  rw [State.reg_setReg]
  by_cases hzero : rb = 0
  · subst hzero
    have hno : ¬ (0 = ra ∧ ra ≠ 0) := fun ⟨heq, hne⟩ => hne heq.symm
    rw [if_pos rfl, if_neg hno, State.reg_zero]
  · have hlinked : (rb = ra ∧ ra ≠ 0) ↔ rb = ra := and_iff_left_of_imp fun heq => heq ▸ hzero
    simp only [if_neg hzero, hlinked]

/-- Writing a register and jumping leaves the other registers as before. -/
theorem onlyReg_setReg_jumpTo {s : State} (r : Reg) (v target : Word) : OnlyReg r v s ((s.setReg r v).jumpTo target) :=
  fun q => by rw [State.jumpTo_reg, State.reg_setReg]

/-- The target of a link and jump: the base, which is the link where it was written to `rb`, plus the immediate modulo
2^32. -/
theorem linkTarget_toNat (s : State) (ra rb : Reg) (imm : BitVec 16) :
    (((s.setReg ra s.pc).reg rb + imm16Word imm).toNat : Int) =
      ((if rb = ra ∧ ra ≠ 0 then s.pc.toNat else (s.reg rb).toNat : Nat) + extend imm.toNat 16) % 2 ^ 32 := by
  rw [word_add_toNat, imm16Word_toNat, Int.add_emod_emod, State.reg_setReg_eq_ite, apply_ite BitVec.toNat]

/-- `J` and `JAL` have one meaning (90_conflicts C3). -/
theorem exec_eq_linkAndJump {i : Instr} {ra rb : Reg} {imm : BitVec 16} (hi : i = .j ra rb imm ∨ i = .jal ra rb imm)
    (s : State) : exec i s = linkAndJump ra rb imm s := by
  rcases hi with rfl | rfl <;> rfl

/-- Settles O47: the linked state differs from `s` by the link alone, and the jump from it sets the pc alone. -/
theorem jumpsLinkAndThenReadTheBase : Obligations.JumpsLinkAndThenReadTheBase := by
  intro s ra rb imm i hi
  have hnext := (exec_eq_linkAndJump hi s).trans (linkAndJump_next.2 rfl)
  exact ⟨hasCode_of_tag (Laws.OpcodeBits.j ra rb imm) rfl (by decide),
    hasCode_of_tag (Laws.OpcodeBits.jal ra rb imm) rfl (by decide), _, hnext, onlyReg_setReg_jumpTo ra s.pc _,
    ⟨by simp, by simp⟩, ⟨by simp, by simp⟩, ⟨by simp, by simp⟩, linkTarget_toNat s ra rb imm⟩

end Sys2Proof.Machine

/-! The family 46_branch: `BEQ`, `BNE`, `BLT` and `BGE` set the pc to their immediate when the condition of their two
registers holds, and advance otherwise (R200 to R204). -/

namespace Sys2Proof.Machine

section
variable {s : State} {i : Instr} {ra rb : Reg} {imm : BitVec 16} {cond : Word → Word → Bool} {taken : Prop}

/-- What R200 says of the common form, for a condition of the table that decides `taken`. -/
theorem branchesIf_of_exec_eq_branchIf (hexec : exec i s = branchIf cond ra rb imm s)
    (hcond : cond (s.reg ra) (s.reg rb) = true ↔ taken) : BranchesIf taken i imm s := by
  have hnext := hexec.trans (branchIf_next.2 rfl)
  by_cases htaken : taken
  · rw [if_pos (hcond.2 htaken)] at hnext
    exact ⟨_, hnext, fun r => State.jumpTo_reg .., ⟨by simp, by simp⟩, ⟨by simp, by simp⟩, ⟨by simp, by simp⟩,
      fun _ => imm16Word_toNat imm, fun hnot => absurd htaken hnot⟩
  · rw [if_neg (mt hcond.1 htaken)] at hnext
    obtain ⟨hpc, hmem, hdevices, hcontrol⟩ := aluFrame_advance (s := s)
    exact ⟨_, hnext, sameRegs_advance, hmem, hdevices, hcontrol, fun h => absurd h htaken, fun _ => hpc⟩

end

/-- Settles O48: each branch is the common form with its condition of the table, `EQ` and `NE` on patterns, `LT` and `GE`
on signed values. -/
theorem branchesSetThePcWhenTheConditionHolds : Obligations.BranchesSetThePcWhenTheConditionHolds := fun _ ra rb imm =>
  ⟨hasCode_of_tag (Laws.OpcodeBits.beq ra rb imm) rfl (by decide),
    hasCode_of_tag (Laws.OpcodeBits.bne ra rb imm) rfl (by decide),
    hasCode_of_tag (Laws.OpcodeBits.blt ra rb imm) rfl (by decide),
    hasCode_of_tag (Laws.OpcodeBits.bge ra rb imm) rfl (by decide),
    branchesIf_of_exec_eq_branchIf (cond := condEq) rfl beq_iff_eq,
    branchesIf_of_exec_eq_branchIf (cond := condNe) rfl bne_iff_ne,
    branchesIf_of_exec_eq_branchIf (cond := condLt) rfl decide_eq_true_iff,
    branchesIf_of_exec_eq_branchIf (cond := condGe) rfl decide_eq_true_iff⟩

end Sys2Proof.Machine

/-! The family 47_mem: the loads `LW`, `LH`, `LB` (R211 to R213) and the stores `SW`, `SH`, `SB` (R214 to R216). -/

namespace Sys2Proof.Machine

/-! ### Loads (47_mem R210 to R213) -/

section
variable {s : State} {w : Width} {ra rb : Reg} {imm : BitVec 16}

/-- An access that is not inside memory: a load takes the fault. -/
theorem loadFrom_of_outOfBounds {A : Int} (haddr : s.memAddr rb imm = A) (h : ¬ s.mem.InBounds A w.bytes) :
    loadFrom w ra rb imm s = raise (.memoryFault s.pc A w.bytes) s := by
  simp [loadFrom, haddr, h]

/-- A load whose bytes are inside memory completes with their value. -/
theorem loadFrom_of_inBounds {a : Nat} (haddr : s.memAddr rb imm = a) (ha : a + w.bytes ≤ s.mem.size) :
    loadFrom w ra rb imm s = completeWith ra (s.mem.load a w) s := by
  have hb : s.mem.InBounds a w.bytes := ⟨by omega, by omega⟩
  simp [loadFrom, haddr, hb]

/-- What a load inside memory does, for the value `n` of the bytes it reads; a register holds that value unreduced. -/
theorem loadFrom_onlyRegInt {a : Nat} {n : Int} (haddr : s.memAddr rb imm = a) (ha : a + w.bytes ≤ s.mem.size)
    (hn : ((s.mem.load a w).toNat : Int) = n) :
    ∃ t, loadFrom w ra rb imm s = .next t ∧ AluFrame s t ∧ OnlyRegInt ra n s t := by
  have hmod : ((s.mem.load a w).toNat : Int) = n % 2 ^ 32 := by
    have hlt := (s.mem.load a w).isLt
    omega
  obtain ⟨t, hnext, hreg, hframe⟩ := completeWith_onlyRegInt (s := s) (r := ra) hmod
  exact ⟨t, (loadFrom_of_inBounds haddr ha).trans hnext, hframe, hreg⟩

end

/-- Settles O49: each load is the common form at its width, and the value it loads is the big-endian one. -/
theorem loadsAreBigEndianAndZeroExtended : Obligations.LoadsAreBigEndianAndZeroExtended := by
  intro s ra rb imm A hA
  have haddr : s.memAddr rb imm = A := (s.memAddr_eq rb imm).trans hA.symm
  refine ⟨hasCode_of_tag (Laws.OpcodeBits.lw ra rb imm) rfl (by decide),
    hasCode_of_tag (Laws.OpcodeBits.lb ra rb imm) rfl (by decide),
    hasCode_of_tag (Laws.OpcodeBits.lh ra rb imm) rfl (by decide), loadFrom_of_outOfBounds (w := .word) haddr,
    loadFrom_of_outOfBounds (w := .byte) haddr, loadFrom_of_outOfBounds (w := .half) haddr, fun a ha => ?_⟩
  have haddr : s.memAddr rb imm = a := haddr.trans ha.symm
  exact ⟨fun hsize => loadFrom_onlyRegInt (w := .word) haddr hsize (by exact_mod_cast s.mem.load_word_toNat a),
    fun hsize => loadFrom_onlyRegInt (w := .byte) haddr hsize (by exact_mod_cast s.mem.load_byte_toNat a),
    fun hsize => loadFrom_onlyRegInt (w := .half) haddr hsize (by exact_mod_cast s.mem.load_half_toNat a)⟩

/-! ### Stores (47_mem R210, R214 to R216) -/

/-- The bytes of a word are the digits of its value in base 256. -/
theorem byteOf_of_toNat_eq {v : Word} {b0 b1 b2 b3 : Byte}
    (h : v.toNat = b3.toNat * 2 ^ 24 + b2.toNat * 2 ^ 16 + b1.toNat * 2 ^ 8 + b0.toNat) :
    byteOf v 0 = b0 ∧ byteOf v 1 = b1 ∧ byteOf v 2 = b2 ∧ byteOf v 3 = b3 := by
  have h0 := b0.isLt
  have h1 := b1.isLt
  have h2 := b2.isLt
  have h3 := b3.isLt
  refine ⟨?_, ?_, ?_, ?_⟩ <;> exact BitVec.eq_of_toNat_eq (by rw [byteOf_toNat]; omega)

section
variable {s : State} {w : Width} {ra rb : Reg} {imm : BitVec 16}

/-- An access that is not inside memory: a store takes the fault. -/
theorem storeTo_of_outOfBounds {A : Int} (haddr : s.memAddr ra imm = A) (h : ¬ s.mem.InBounds A w.bytes) :
    storeTo w ra rb imm s = raise (.memoryFault s.pc A w.bytes) s := by
  simp [storeTo, haddr, h]

/-- What a store inside memory does, for the bytes `bs` it writes. -/
theorem storeTo_onlyBytes {a : Nat} {bs : List Byte} (hwf : s.mem.wf = true) (haddr : s.memAddr ra imm = a)
    (ha : a + w.bytes ≤ s.mem.size) (hbs : storedBytes (s.reg rb) w = bs) :
    ∃ t, storeTo w ra rb imm s = .next t ∧ OnlyBytes a bs s t ∧
      SameRegs s t ∧ Advanced s t ∧ SameDevices s t ∧ SameControl s t := by
  subst hbs
  have honly : OnlyBytes a (storedBytes (s.reg rb) w) s (s.setMem (s.mem.store a w (s.reg rb))).advance :=
    onlyBytes_of_mem hwf (by rwa [storedBytes_length]) rfl
  exact ⟨_, storeTo_of_inBounds haddr ha, honly, fun r => by simp, advanced_of_pc rfl, ⟨rfl, rfl⟩, rfl, rfl⟩

end

/-- Settles O50: each store is the common form at its width, and the bytes it writes are the low digits of the value. -/
theorem storesWriteTheLowBytesBigEndian : Obligations.StoresWriteTheLowBytesBigEndian := by
  intro s ra rb imm A hA
  have haddr : s.memAddr ra imm = A := (s.memAddr_eq ra imm).trans hA.symm
  refine ⟨haddr,
    hasCode_of_tag (Laws.OpcodeBits.sw ra rb imm) rfl (by decide),
    hasCode_of_tag (Laws.OpcodeBits.sb ra rb imm) rfl (by decide),
    hasCode_of_tag (Laws.OpcodeBits.sh ra rb imm) rfl (by decide), storeTo_of_outOfBounds (w := .word) haddr,
    storeTo_of_outOfBounds (w := .byte) haddr, storeTo_of_outOfBounds (w := .half) haddr,
    fun a b0 b1 b2 b3 hwf ha hv => ?_⟩
  obtain ⟨h0, h1, h2, h3⟩ := byteOf_of_toNat_eq hv
  have hword : storedBytes (s.reg rb) .word = [b3, b2, b1, b0] := by rw [storedBytes, bytesOfWord, h0, h1, h2, h3]
  have hbyte : storedBytes (s.reg rb) .byte = [b0] := by rw [storedBytes, h0]
  have hhalf : storedBytes (s.reg rb) .half = [b1, b0] := by rw [storedBytes, h0, h1]
  exact ⟨fun hsize => storeTo_onlyBytes hwf ha.symm hsize hword, fun hsize => storeTo_onlyBytes hwf ha.symm hsize hbyte,
    fun hsize => storeTo_onlyBytes hwf ha.symm hsize hhalf⟩

end Sys2Proof.Machine

/-! The family 60_exceptions: a fault changes the run state alone (R232) and records the faulting address (R231). -/

namespace Sys2Proof.Machine

/-- The address of the faulting instruction that a fault records (60_exceptions R231). -/
def Fault.cur : Fault → Word
  | .memoryFault cur _ _ | .inputFormatError cur | .illegalInstruction cur _ | .divideByZero cur
  | .ioArgumentFault cur => cur

/-- The five kinds of fault an instruction at a given address can raise (60_exceptions R231). -/
theorem Fault.kinds_of_cur {f : Fault} {pc : Word} (h : f.cur = pc) :
    f = .inputFormatError pc ∨ f = .divideByZero pc ∨ f = .ioArgumentFault pc ∨
      (∃ w, f = .illegalInstruction pc w) ∨ ∃ a n, f = .memoryFault pc a n := by
  subst h
  cases f <;> simp [Fault.cur]

section
variable {s t : State} {f : Fault} {i : Instr}

/-- A fault that an instruction takes records the pc. -/
theorem Effect.fault_cur (h : Effect i s t) (hs : s.run = .running) (ht : t.run = .faulted f) : f.cur = s.pc := by
  cases h with
  | fault g hg =>
    obtain rfl : g = f := by simpa using ht
    rcases hg with rfl | rfl | rfl | ⟨a, n, rfl⟩ <;> rfl
  | halt | advance | emit | reg | jump | branch | store | input => simp [hs] at ht

/-- A fault in which a step ends records the pc, whether fetch, decode or the instruction raised it. -/
theorem step_fault_cur (h : step s = .next t) (ht : t.run = .faulted f) : f.cur = s.pc := by
  obtain ⟨hs, ⟨w, i, -, -, hexec⟩ | ⟨w, e, -, -, rfl⟩ | ⟨g, hg, rfl⟩⟩ := step_next h
  · exact (exec_effect hexec).fault_cur hs ht
  · obtain rfl : Fault.illegalInstruction s.pc w = f := by simpa using ht
    rfl
  · obtain rfl : g = f := by simpa using ht
    obtain ⟨a, n, rfl⟩ := fetch_error hg
    rfl

end

/-- Settles O8: a step that ends in a fault only takes it, and the fault it takes records the pc. -/
theorem faultsArePrecise : Obligations.FaultsArePrecise := by
  intro s t f h ht
  have hkinds := Fault.kinds_of_cur (step_fault_cur h ht)
  obtain rfl := step_eq_setFaulted h ht
  exact ⟨s.setFaulted_reg f, rfl, rfl, ⟨rfl, rfl⟩, rfl, hkinds⟩

end Sys2Proof.Machine

/-! The family 70_reset_and_hazards: loading an image (R260), and the invariant of O10 at reset. -/

namespace Sys2Proof.Machine

/-- A memory that lists no byte is canonical, whatever its size (log 12). -/
theorem Memory.wf_of_cells_nil {m : Memory} (h : m.cells = []) : m.wf = true :=
  Memory.wf_iff.2 (by simp [h, canonicalCells])

section
variable {m : Memory} {image : List Byte} (hcells : m.cells = [])
include hcells

/-- An image written at address 0 of a memory of zeros is read back from there. -/
theorem Memory.readByte_writeBytes_image (hsize : image.length ≤ m.size) (k : Nat) (hk : k < image.length) :
    (m.writeBytes 0 image).readByte k = image[k] := by
  have hend : 0 + image.length ≤ m.size := by rwa [Nat.zero_add]
  simpa using Memory.readByte_writeBytes_inside (Memory.wf_of_cells_nil hcells) hend k hk

/-- Past the image a memory of zeros reads 0. -/
theorem Memory.readByte_writeBytes_past_image {a : Nat} (ha : image.length ≤ a) :
    (m.writeBytes 0 image).readByte a = 0 := by
  rw [Memory.readByte_writeBytes_outside m (.inr (by omega)), Memory.readByte_of_cells_nil hcells]

/-- A memory of zeros with the image written is canonical. -/
theorem Memory.wf_writeBytes_image (hsize : image.length ≤ m.size) : (m.writeBytes 0 image).wf = true :=
  Memory.wf_writeBytes (Memory.wf_of_cells_nil hcells) (by rwa [Nat.zero_add])

end

/-- Settles O3: the length check selects the case, and the loaded memory is a memory of zeros with the image written. -/
theorem loadPlacesTheImageAndZeroFills : Obligations.LoadPlacesTheImageAndZeroFills := by
  intro cfg memSize draw input image
  refine ⟨fun hlong => if_pos hlong, fun hfits => ⟨_, if_neg (not_lt.2 hfits), ?_⟩⟩
  exact ⟨Memory.writeBytes_size _ _ _, Memory.wf_writeBytes_image rfl hfits, Memory.readByte_writeBytes_image rfl hfits,
    fun _ => Memory.readByte_writeBytes_past_image rfl, fun _ _ => rfl, rfl, rfl, rfl, rfl, rfl, rfl⟩

/-- Settles O2: no byte of memory is listed, and the reference size is a legal one. -/
theorem resetIsWellFormed : Obligations.ResetIsWellFormed :=
  State.wf_iff.2 ⟨reset_mem_wf, by decide, by decide⟩

end Sys2Proof.Machine
